-- ==== Sys2Proof/Word.lean ====
section
/-! DEFINITION. The word types of ALC-CORE (spec/00_scope.md R11, R14). Storage carries no signedness. A register of `XLEN`
bits and a pc of `PC_WIDTH` bits (R10) are held in a `Word32` whose bits above that width are 0; the functions that read
and make such values are in Machine/Words.lean (log entry 2). -/

namespace Sys2Proof

/-- The spec's `Word8`: one element of data memory (R42) or of the instruction image (R6). -/
abbrev Byte := BitVec 8

/-- The spec's `Word32` (R11): what holds a register, a memory word, an extended immediate, the pc, an instruction. -/
abbrev Word := BitVec 32

/-- The spec's `w32(n)` (R11): the word whose unsigned value is `n mod 2^32`. -/
def w32 (n : Int) : Word := BitVec.ofInt 32 n

end Sys2Proof
end

