-- ==== Sys2Proof/Config.lean ====
section
/-! DEFINITION. The implementation parameters of ALC-CORE (spec/00_scope.md R10). Each row of R10's table but `N` is a field
(a field position is two) of `LaunchParams` with the spec's value as its default; the machine carries the record in its
state, and a run takes any well-formed one (`LaunchParams.wf`, WellFormed.lean, log entry 2). `N` is the length of the
instruction array that a run takes. -/

namespace Sys2Proof

/-! ### Policies -/

/-- `FLAGS_OPERAND_POLICY` (R10, R33, D6): what a used register field that holds `FLAGS_IDX` does. -/
inductive FlagsOperandPolicy where
  /-- The field raises `IllegalRegister` (the default). -/
  | fault
  /-- The field reads and writes the flags word like any other register. -/
  | asRegister
  deriving DecidableEq, Repr

/-- `PC_MISALIGN_POLICY` (R10, R35, D13): what a fetch at a pc that is not a multiple of 4 does. -/
inductive PcMisalignPolicy where
  /-- Fetch the word that contains the pc (the default). -/
  | truncate
  /-- Raise `MisalignedPC` before the fetch. -/
  | fault
  deriving DecidableEq, Repr

/-- `READ_EOF_POLICY` (R10, R252, D23): what `readr` does at the end of the input. The spec offers one value. -/
inductive ReadEofPolicy where
  /-- Raise `InputExhausted`. -/
  | fault
  deriving DecidableEq, Repr

/-- `INSTR_BYTE_ORDER` (R10, R61, D3): how the bytes of the image form instruction words. -/
inductive ByteOrder where
  /-- The byte at the lowest address is bits 7:0 (the default). -/
  | little
  /-- The byte at the lowest address is bits 31:24. -/
  | big
  deriving DecidableEq, Repr

/-! ### The parameters -/

/-- The parameters of R10, fixed for a run, with the spec's values as defaults (D32). -/
structure LaunchParams where
  /-- `XLEN`: bits of a register and of a data word. -/
  xlen : Nat := 32
  /-- `PC_WIDTH` (R34): bits of the pc. -/
  pcWidth : Nat := 32
  /-- `NREGS` (R30): entries of the register file. -/
  nregs : Nat := 17
  /-- `SP_IDX` (R32): the stack pointer's index. -/
  spIdx : Nat := 6
  /-- `FLAGS_IDX` (R33): the flags register's index. -/
  flagsIdx : Nat := 16
  /-- `MEM_SIZE` (R42): bytes of data memory. -/
  memSize : Nat := 1024
  /-- `SP_RESET` (R46): the stack pointer at reset, the empty top of the stack. -/
  spReset : Nat := 1024
  /-- `CF_BIT` (R37). -/
  cfBit : Nat := 0
  /-- `ZF_BIT` (R37). -/
  zfBit : Nat := 6
  /-- `SF_BIT` (R37). -/
  sfBit : Nat := 7
  /-- `OF_BIT` (R37). -/
  ofBit : Nat := 11
  /-- `SHR_AMOUNT` (R140): the shift distance of `shrl`. -/
  shrAmount : Nat := 1
  /-- `ILEN` (R90): bytes of one instruction. -/
  ilen : Nat := 4
  /-- The highest bit of the opcode field, 31:27 (R91). -/
  opcodeHi : Nat := 31
  /-- The lowest bit of the opcode field. -/
  opcodeLo : Nat := 27
  /-- The highest bit of the first register field, 26:22 (R91). -/
  raHi : Nat := 26
  /-- The lowest bit of the first register field. -/
  raLo : Nat := 22
  /-- The highest bit of the second register field, 21:17 (R91). -/
  rbHi : Nat := 21
  /-- The lowest bit of the second register field. -/
  rbLo : Nat := 17
  /-- The highest bit of the immediate field, 15:0 (R91). -/
  immHi : Nat := 15
  /-- The lowest bit of the immediate field. -/
  immLo : Nat := 0
  /-- `OPCODE_VALUES` (R97, D1): entry `k` is the opcode of the operation in row `k` of the opcode map. -/
  opcodeValues : List Nat := [0, 1, 2, 3, 4, 5, 6, 7, 8, 9, 10] ++ [11, 12, 13, 14, 15, 16, 17, 18, 19, 20, 21]
  /-- `FLAGS_OPERAND_POLICY`. -/
  flagsOperand : FlagsOperandPolicy := .fault
  /-- `PC_MISALIGN_POLICY`. -/
  pcMisalign : PcMisalignPolicy := .truncate
  /-- `READ_EOF_POLICY`. -/
  readEof : ReadEofPolicy := .fault
  /-- `INSTR_BYTE_ORDER`. -/
  instrByteOrder : ByteOrder := .little
  deriving DecidableEq, Repr

/-- The number of bits of the field `hi:lo` (R11, R91). -/
def fieldWidth (hi lo : Nat) : Nat := hi + 1 - lo

/-- The upper bound on `N`, the number of instructions: 2^30 by default, so that every instruction has an address of
`PC_WIDTH` bits (R10, D34). -/
def LaunchParams.maxInstrs (p : LaunchParams) : Nat := 2 ^ p.pcWidth / p.ilen

end Sys2Proof
end

