-- ==== Sys2Proof/Machine/Words.lean ====
section
/-! DEFINITION. Values of `XLEN` and of `PC_WIDTH` bits (spec/00_scope.md R10, R11), held in a `Word` whose higher bits are 0.
The unsigned value `u(v)` of the spec is `v.toNat`. At the default widths of 32 bits `fit` and `pcFit` change nothing and
`signed` is `v.toInt` (log entry 2). -/

namespace Sys2Proof

/-- The low `k` bits of a word, with every higher bit 0. -/
def lowBits (k : Nat) (v : Word) : Word := BitVec.ofNat 32 (v.toNat % 2 ^ k)

/-- The two's-complement number in the low `k` bits of `n`. -/
def signedLow (k n : Nat) : Int :=
  if 2 * (n % 2 ^ k) < 2 ^ k then ((n % 2 ^ k : Nat) : Int) else ((n % 2 ^ k : Nat) : Int) - ((2 ^ k : Nat) : Int)

/-- A value as a register of `XLEN` bits holds it. -/
def LaunchParams.fit (p : LaunchParams) (v : Word) : Word := lowBits p.xlen v

/-- A value as the pc of `PC_WIDTH` bits holds it. -/
def LaunchParams.pcFit (p : LaunchParams) (v : Word) : Word := lowBits p.pcWidth v

/-- The spec's `s(v)` of a register value (R11). -/
def LaunchParams.signed (p : LaunchParams) (v : Word) : Int := signedLow p.xlen v.toNat

/-- The spec's `w32(n)` for a register (R11): the value whose unsigned reading is `n mod 2^XLEN`. -/
def LaunchParams.word (p : LaunchParams) (n : Int) : Word := p.fit (w32 n)

end Sys2Proof
end

