-- ==== Sys2Proof/Syntax.lean ====
section
/-! DEFINITION. The instructions of ALC-CORE as syntax: the decoder's raw fields (spec/30_encoding.md R95) and one
constructor of `Instr` per row of spec/opcode_table.json (R97), carrying the fields that row uses, in encoding order. -/

namespace Sys2Proof

/-- The number that a register field of an instruction word holds (R91, R94): 0 to 31 in a 5-bit field, not checked at
decode. -/
abbrev RegField := Nat

/-- What `decode` returns (R95): the numbers in the opcode and register fields of a word, and the immediate, already
sign-extended to 32 bits (R93). -/
structure Decoded where
  opcode : Nat
  ra : RegField
  rb : RegField
  imm : Word
  deriving DecidableEq, Repr

/-- The 22 operations of the opcode map (R97), each with the fields it uses. `imm` is the sign-extended immediate. -/
inductive Instr where
  /-- `subl rA, imm` (R160). -/
  | subl (ra : RegField) (imm : Word)
  /-- `addl_reg_reg rA, rB` (R161). -/
  | addlRegReg (ra rb : RegField)
  /-- `addl_imm_reg rA, imm` (R162). -/
  | addlImmReg (ra : RegField) (imm : Word)
  /-- `imull rA, rB` (R163). -/
  | imull (ra rb : RegField)
  /-- `shrl rA` (R164). -/
  | shrl (ra : RegField)
  /-- `movl_reg_reg rA, rB` (R180). -/
  | movlRegReg (ra rb : RegField)
  /-- `movl_deref_reg rA, rB, imm` (R181): base rA, destination rB. -/
  | movlDerefReg (ra rb : RegField) (imm : Word)
  /-- `movl_reg_deref rA, rB, imm` (R182): value rA, base rB. -/
  | movlRegDeref (ra rb : RegField) (imm : Word)
  /-- `movl_imm_reg rA, imm` (R183). -/
  | movlImmReg (ra : RegField) (imm : Word)
  /-- `cmpl rA, rB` (R201). -/
  | cmpl (ra rb : RegField)
  /-- `je imm` (R203). -/
  | je (imm : Word)
  /-- `jl imm` (R204). -/
  | jl (imm : Word)
  /-- `jle imm` (R205). -/
  | jle (imm : Word)
  /-- `jge imm` (R206). -/
  | jge (imm : Word)
  /-- `jbe imm` (R207). -/
  | jbe (imm : Word)
  /-- `jmp imm` (R208). -/
  | jmp (imm : Word)
  /-- `call imm` (R230). -/
  | call (imm : Word)
  /-- `ret` (R231). -/
  | ret
  /-- `pushl rA` (R232). -/
  | pushl (ra : RegField)
  /-- `popl rA` (R233). -/
  | popl (ra : RegField)
  /-- `printr rA` (R250). -/
  | printr (ra : RegField)
  /-- `readr rA` (R252). -/
  | readr (ra : RegField)
  deriving DecidableEq, Repr

end Sys2Proof
end

