-- ==== Sys2Proof/WellFormed.lean ====
section
/-! DEFINITION. Which instructions have an encoding: those whose register numbers fit their fields and whose immediate is the
extension of its field's value (spec/30_encoding.md R93, R96). A register number that names no register is NOT
ill-formed: it encodes, decodes, and is checked when the instruction executes (R94, R100). Also, which launch parameters
describe a machine at all (R10). -/

namespace Sys2Proof

/-- The number fits the field `hi:lo` (R96): 0 to 31 in a 5-bit field. -/
def fieldFits (hi lo n : Nat) : Bool := decide (n < 2 ^ fieldWidth hi lo)

/-- The immediate lies in [-32768, 32767], the range of its 16-bit field (R93, R96). -/
def immFits (p : LaunchParams) (imm : Word) : Bool :=
  decide (-((2 ^ (p.immHi - p.immLo) : Nat) : Int) ≤ imm.toInt) &&
    decide (imm.toInt < ((2 ^ (p.immHi - p.immLo) : Nat) : Int))

/-- The number fits the first register field. -/
def raFits (p : LaunchParams) (ra : RegField) : Bool := fieldFits p.raHi p.raLo ra

/-- The number fits the second register field. -/
def rbFits (p : LaunchParams) (rb : RegField) : Bool := fieldFits p.rbHi p.rbLo rb

/-- A raw field record that an encoder can write (R96). -/
def Decoded.wellFormed (p : LaunchParams) (d : Decoded) : Bool :=
  fieldFits p.opcodeHi p.opcodeLo d.opcode && raFits p d.ra && rbFits p d.rb && immFits p d.imm

/-- An instruction that an encoder can write (R96). -/
def Instr.wellFormed (p : LaunchParams) : Instr → Bool
  | .subl ra imm => raFits p ra && immFits p imm
  | .addlRegReg ra rb => raFits p ra && rbFits p rb
  | .addlImmReg ra imm => raFits p ra && immFits p imm
  | .imull ra rb => raFits p ra && rbFits p rb
  | .shrl ra => raFits p ra
  | .movlRegReg ra rb => raFits p ra && rbFits p rb
  | .movlDerefReg ra rb imm => raFits p ra && rbFits p rb && immFits p imm
  | .movlRegDeref ra rb imm => raFits p ra && rbFits p rb && immFits p imm
  | .movlImmReg ra imm => raFits p ra && immFits p imm
  | .cmpl ra rb => raFits p ra && rbFits p rb
  | .je imm => immFits p imm
  | .jl imm => immFits p imm
  | .jle imm => immFits p imm
  | .jge imm => immFits p imm
  | .jbe imm => immFits p imm
  | .jmp imm => immFits p imm
  | .call imm => immFits p imm
  | .ret => true
  | .pushl ra => raFits p ra
  | .popl ra => raFits p ra
  | .printr ra => raFits p ra
  | .readr ra => raFits p ra

/-! ### Launch parameters (R10) -/

/-- A register and a pc fit the 4 bytes that a data access moves (R62, R63, R230). -/
abbrev LaunchParams.widthsFit (p : LaunchParams) : Prop := p.xlen ≤ 32 ∧ p.pcWidth ≤ 32

/-- Both implicit registers are entries of the file, and they are two (R30, R32, R33, R48). -/
abbrev LaunchParams.registersFit (p : LaunchParams) : Prop :=
  p.spIdx < p.nregs ∧ p.flagsIdx < p.nregs ∧ p.spIdx ≠ p.flagsIdx

/-- The four flags are four bits of the flags register (R37). -/
abbrev LaunchParams.flagBitsFit (p : LaunchParams) : Prop :=
  (p.cfBit < p.xlen ∧ p.zfBit < p.xlen ∧ p.sfBit < p.xlen ∧ p.ofBit < p.xlen) ∧
    [p.cfBit, p.zfBit, p.sfBit, p.ofBit].Nodup

/-- `hi:lo` is a field of an instruction word (R91). -/
abbrev isField (hi lo : Nat) : Prop := lo ≤ hi ∧ hi < 32

/-- Two fields share no bit. -/
abbrev fieldsApart (hi1 lo1 hi2 lo2 : Nat) : Prop := hi1 < lo2 ∨ hi2 < lo1

/-- The four fields lie in the instruction word and share no bit, and a register holds the immediate (R91, R93). -/
abbrev LaunchParams.fieldsFit (p : LaunchParams) : Prop :=
  (isField p.opcodeHi p.opcodeLo ∧ isField p.raHi p.raLo ∧ isField p.rbHi p.rbLo ∧ isField p.immHi p.immLo) ∧
    fieldsApart p.opcodeHi p.opcodeLo p.raHi p.raLo ∧ fieldsApart p.opcodeHi p.opcodeLo p.rbHi p.rbLo ∧
    fieldsApart p.opcodeHi p.opcodeLo p.immHi p.immLo ∧ fieldsApart p.raHi p.raLo p.rbHi p.rbLo ∧
    fieldsApart p.raHi p.raLo p.immHi p.immLo ∧ fieldsApart p.rbHi p.rbLo p.immHi p.immLo ∧
    fieldWidth p.immHi p.immLo ≤ p.xlen

/-- Each of the 22 operations has an opcode of its own, which fits the opcode field (R97). -/
abbrev LaunchParams.opcodesFit (p : LaunchParams) : Prop :=
  p.opcodeValues.length = 22 ∧ p.opcodeValues.Nodup ∧
    ∀ op ∈ p.opcodeValues, fieldFits p.opcodeHi p.opcodeLo op = true

/-- An instruction's bytes hold its 32-bit word (R90). -/
abbrev LaunchParams.lengthFits (p : LaunchParams) : Prop := 4 ≤ p.ilen

/-- The parameters describe a machine of the spec's shape. -/
abbrev LaunchParams.wf (p : LaunchParams) : Prop :=
  p.widthsFit ∧ p.registersFit ∧ p.flagBitsFit ∧ p.fieldsFit ∧ p.opcodesFit ∧ p.lengthFits

end Sys2Proof
end

