-- ==== Sys2Proof/Decode.lean ====
section
/-! DEFINITION. The instruction decoder and encoder of ALC-CORE (spec/30_encoding.md), under the parameters of a run: the byte
order of image words (spec/20_memory.md R61), the field layout (R91), the total field decoder (R95), the opcode map
(R97), the encoder (R96). -/

namespace Sys2Proof

/-! ### Words and bytes of the image -/

/-- The number that bytes form, the lowest-valued byte first. -/
def bytesValue : List Byte → Nat
  | [] => 0
  | b :: bs => b.toNat + 256 * bytesValue bs

/-- The instruction word that the `ILEN` bytes of an instruction form, lowest address first (R61). -/
def wordOfBytes (p : LaunchParams) (bs : List Byte) : Word :=
  match p.instrByteOrder with
  | .little => BitVec.ofNat 32 (bytesValue bs)
  | .big => BitVec.ofNat 32 (bytesValue bs.reverse)

/-- The `ILEN` image bytes of an instruction word, lowest address first (R61). -/
def bytesOfWord (p : LaunchParams) (w : Word) : List Byte :=
  match p.instrByteOrder with
  | .little => (List.range p.ilen).map fun k => w.extractLsb' (8 * k) 8
  | .big => ((List.range p.ilen).map fun k => w.extractLsb' (8 * k) 8).reverse

/-- The words of an image in order; `none` where the length is not a multiple of `ILEN` (R8, R61, R302). -/
def imageWords (p : LaunchParams) (image : List Byte) : Option (List Word) :=
  if image.length % p.ilen = 0 then
    some ((List.range (image.length / p.ilen)).map fun k => wordOfBytes p ((image.drop (p.ilen * k)).take p.ilen))
  else none

/-! ### Fields -/

/-- `w[hi:lo]` as an unsigned number (R11, R94). -/
def bitField (hi lo : Nat) (w : Word) : Nat := w.toNat / 2 ^ lo % 2 ^ fieldWidth hi lo

/-- A word that holds a number in the field `hi:lo` and is 0 elsewhere (R96). -/
def placeField (hi lo n : Nat) : Word := BitVec.ofNat 32 (n % 2 ^ fieldWidth hi lo * 2 ^ lo)

/-- `sext_32` of the `k`-bit value that `n` holds (R11, R93). -/
def sext32 (k n : Nat) : Word := w32 (signedLow k n)

/-- The decoder (R95): total, pure, reads neither the bit that no field covers (R92) nor any range (R94). -/
def decode (p : LaunchParams) (w : Word) : Decoded where
  opcode := bitField p.opcodeHi p.opcodeLo w
  ra := bitField p.raHi p.raLo w
  rb := bitField p.rbHi p.rbLo w
  imm := sext32 (fieldWidth p.immHi p.immLo) (bitField p.immHi p.immLo w)

/-- The encoder of a field record (R96): the bit that no field covers is written 0. -/
def encodeFields (p : LaunchParams) (d : Decoded) : Word :=
  placeField p.opcodeHi p.opcodeLo d.opcode ||| placeField p.raHi p.raLo d.ra ||| placeField p.rbHi p.rbLo d.rb |||
    placeField p.immHi p.immLo d.imm.toNat

/-! ### The opcode map -/

/-- The row of the opcode map that an opcode value names, if any (R97, R99). -/
def opcodeRow (p : LaunchParams) (op : Nat) : Option Nat := p.opcodeValues.idxOf? op

/-- The opcode value of a row of the opcode map. -/
def opcodeOf (p : LaunchParams) (row : Nat) : Nat := p.opcodeValues.getD row 0

/-- The operation of a decoded word with the fields it uses (R97, R98); `none` where the opcode names no operation (R99). -/
def Decoded.toInstr (p : LaunchParams) (d : Decoded) : Option Instr :=
  match opcodeRow p d.opcode with
  | some 0 => some (.subl d.ra d.imm)
  | some 1 => some (.addlRegReg d.ra d.rb)
  | some 2 => some (.addlImmReg d.ra d.imm)
  | some 3 => some (.imull d.ra d.rb)
  | some 4 => some (.shrl d.ra)
  | some 5 => some (.movlRegReg d.ra d.rb)
  | some 6 => some (.movlDerefReg d.ra d.rb d.imm)
  | some 7 => some (.movlRegDeref d.ra d.rb d.imm)
  | some 8 => some (.movlImmReg d.ra d.imm)
  | some 9 => some (.cmpl d.ra d.rb)
  | some 10 => some (.je d.imm)
  | some 11 => some (.jl d.imm)
  | some 12 => some (.jle d.imm)
  | some 13 => some (.jge d.imm)
  | some 14 => some (.jbe d.imm)
  | some 15 => some (.jmp d.imm)
  | some 16 => some (.call d.imm)
  | some 17 => some .ret
  | some 18 => some (.pushl d.ra)
  | some 19 => some (.popl d.ra)
  | some 20 => some (.printr d.ra)
  | some 21 => some (.readr d.ra)
  | _ => none

/-- The field record of an instruction, every unused field 0 (R96, R98). -/
def Instr.fields (p : LaunchParams) : Instr → Decoded
  | .subl ra imm => ⟨opcodeOf p 0, ra, 0, imm⟩
  | .addlRegReg ra rb => ⟨opcodeOf p 1, ra, rb, 0⟩
  | .addlImmReg ra imm => ⟨opcodeOf p 2, ra, 0, imm⟩
  | .imull ra rb => ⟨opcodeOf p 3, ra, rb, 0⟩
  | .shrl ra => ⟨opcodeOf p 4, ra, 0, 0⟩
  | .movlRegReg ra rb => ⟨opcodeOf p 5, ra, rb, 0⟩
  | .movlDerefReg ra rb imm => ⟨opcodeOf p 6, ra, rb, imm⟩
  | .movlRegDeref ra rb imm => ⟨opcodeOf p 7, ra, rb, imm⟩
  | .movlImmReg ra imm => ⟨opcodeOf p 8, ra, 0, imm⟩
  | .cmpl ra rb => ⟨opcodeOf p 9, ra, rb, 0⟩
  | .je imm => ⟨opcodeOf p 10, 0, 0, imm⟩
  | .jl imm => ⟨opcodeOf p 11, 0, 0, imm⟩
  | .jle imm => ⟨opcodeOf p 12, 0, 0, imm⟩
  | .jge imm => ⟨opcodeOf p 13, 0, 0, imm⟩
  | .jbe imm => ⟨opcodeOf p 14, 0, 0, imm⟩
  | .jmp imm => ⟨opcodeOf p 15, 0, 0, imm⟩
  | .call imm => ⟨opcodeOf p 16, 0, 0, imm⟩
  | .ret => ⟨opcodeOf p 17, 0, 0, 0⟩
  | .pushl ra => ⟨opcodeOf p 18, ra, 0, 0⟩
  | .popl ra => ⟨opcodeOf p 19, ra, 0, 0⟩
  | .printr ra => ⟨opcodeOf p 20, ra, 0, 0⟩
  | .readr ra => ⟨opcodeOf p 21, ra, 0, 0⟩

/-! ### Instructions, words and bytes -/

/-- The instruction that a word holds; `none` for an illegal opcode (R95, R97, R99). -/
def decodeWord (p : LaunchParams) (w : Word) : Option Instr := (decode p w).toInstr p

/-- The word of an instruction (R96, R97). -/
def encode (p : LaunchParams) (i : Instr) : Word := encodeFields p (i.fields p)

/-- Why bytes decode to no instruction. -/
inductive DecodeReject where
  /-- The opcode field names no operation (R99). -/
  | illegalOpcode (op : Nat)
  /-- Fewer bytes than one instruction has are left (R90). -/
  | truncated (left : Nat)
  deriving DecidableEq, Repr

/-- The instruction at the head of a byte list, with the bytes after it (R61, R90, R95). -/
def decodeBytes (p : LaunchParams) (bs : List Byte) : Except DecodeReject (Instr × List Byte) :=
  if bs.length < p.ilen then .error (.truncated bs.length)
  else
    match decodeWord p (wordOfBytes p (bs.take p.ilen)) with
    | some i => .ok (i, bs.drop p.ilen)
    | none => .error (.illegalOpcode (decode p (wordOfBytes p (bs.take p.ilen))).opcode)

/-- The bytes of an instruction, lowest address first (R61, R96). -/
def encodeBytes (p : LaunchParams) (i : Instr) : List Byte := bytesOfWord p (encode p i)

/-- The word that the opcode table's numbering gives: `nbits` bits of `w`, every bit above them 0. -/
def tableWord (nbits w : Nat) : Word := BitVec.ofNat 32 (w % 2 ^ nbits)

/-- The instruction the decoder reads from a table word, laid out in memory, under the default parameters. -/
def decodeTableWord (nbits w : Nat) : Option Instr :=
  match decodeBytes {} (bytesOfWord {} (tableWord nbits w)) with
  | .ok (i, _) => some i
  | .error _ => none

end Sys2Proof
end

