-- ==== Sys2Proof/Machine/State.lean ====
section
/-! DEFINITION. The architectural state of ALC-CORE (spec/10_state.md R30 to R50), as plain data, the reasons a step can
be absent, and the state after reset (R46, R300). -/

namespace Sys2Proof.Machine

/-- An index into the register file; 0 to `NREGS` - 1 name a register (R30). -/
abbrev RegIdx := Nat

/-- Data memory (R42): the bytes that differ from their reset value 0x00 (R46), by rising address. -/
abbrev Memory := List Host.Cell

/-- The canonical form of data memory: addresses strictly rising, and no listed byte is the 0x00 that an unlisted
address reads as. -/
abbrev Memory.wf (m : Memory) : Prop := m.Pairwise (fun c d => c.1 < d.1) ∧ ∀ c ∈ m, c.2 ≠ 0

/-- Every listed byte lies in the data space [0, `MEM_SIZE`) (R49, R69). -/
abbrev Memory.inRange (size : Nat) (m : Memory) : Prop := ∀ c ∈ m, c.1 < size

/-- The two normal ends of a run (R44). -/
inductive HaltReason where
  | endOfProgram
  | returnFromEmptyStack
  deriving DecidableEq, Repr

/-- Which register field of an instruction a fault names (R270). -/
inductive FieldName where
  | ra
  | rb
  deriving DecidableEq, Repr

/-- The fault kinds of the spec with what each records (R270). The pc is recorded beside the kind, in `RunStatus.faulted`. -/
inductive FaultKind where
  /-- Code 1: the opcode field is no operation's. -/
  | illegalOpcode (opcode : Nat)
  /-- Code 2: a used register field names no register, or names the flags register under the default policy. -/
  | illegalRegister (value : RegField) (field : FieldName)
  /-- Code 3: a 4-byte data access does not lie in [0, `MEM_SIZE`); records its exact start address (R64). -/
  | memoryOutOfBounds (address : Int)
  /-- Code 4: `readr` met end-of-input or input that is not an integer. -/
  | inputExhausted
  /-- Code 5: a fetch at a pc that is not a multiple of 4, only under `PcMisalignPolicy.fault`. -/
  | misalignedPC
  deriving DecidableEq, Repr

/-- The run status (R44). Only `running` has a next step (R134). -/
inductive RunStatus where
  | running
  | halted (reason : HaltReason)
  /-- The kind, and the address of the faulting instruction. -/
  | faulted (kind : FaultKind) (pc : Word)
  deriving DecidableEq, Repr

/-- What follows the values that the host has put into `in_chan` so far (R6, R252). -/
inductive InTail where
  /-- The host has supplied nothing further yet. -/
  | nothingYet
  /-- The host has signalled end-of-input. -/
  | endOfInput
  /-- The host has signalled input that is not an integer. -/
  | notAnInteger
  deriving DecidableEq, Repr

/-- The input stream `in_chan` (R6, R45): the values supplied so far, oldest first, and what follows them. -/
structure InChan where
  values : List Word
  tail : InTail
  deriving DecidableEq, Repr

/-- The state record (R50), and with it the launch parameters that the step reads (R130): a step changes none of the
last three fields. -/
structure State where
  /-- The register file (R30), `NREGS` entries of `XLEN` bits: `x[6]` is the stack pointer (R32), `x[16]` the flags word
  (R33, R37). -/
  regs : List Word
  /-- The program counter (R34), of `PC_WIDTH` bits. -/
  pc : Word
  /-- Data memory (R42). -/
  mem : Memory
  /-- The run status (R44). -/
  status : RunStatus
  /-- `out_chan` (R45): the values emitted so far, oldest first. -/
  out : List Word
  /-- The read position in `in_chan` (R45). -/
  inPos : Nat
  /-- The instruction array as raw words (R43). -/
  prog : List Word
  /-- The input stream (R6, R45). -/
  inChan : InChan
  /-- The parameters of R10. -/
  params : LaunchParams
  deriving DecidableEq, Repr

/-- Why NO STEP is enabled. Neither constructor is a fault of the spec: those are next states whose status is `faulted`
(R130, R271). -/
inductive Fault where
  /-- Raised by `step` in a final status, `halted` or `faulted` (R134, R274 item 1). Safe: nothing follows. -/
  | runEnded
  /-- Raised by `readr` while the host has supplied no item (R252, D29). Not a final state: the state is kept, and a
  step is enabled again once the host supplies an item (`hostSupply`, `hostSignal`). Safe: nothing follows. -/
  | waitingForInput
  deriving DecidableEq, Repr

/-- Why an input is turned away with no meaning. -/
inductive Refusal where
  /-- Raised by `exec` for an instruction without a meaning; no arm of `exec` raises it. Safe. -/
  | notModelled (mnemonic : String)
  /-- Raised by `boot`, never by `step`: the image length is not a multiple of `ILEN`, 4 bytes (R8, D31). Safe. -/
  | imageLengthNotMultiple
  /-- Raised by `boot`, never by `step`: the image has more than 2^30 instructions (R10, D34). Safe. -/
  | imageTooLong
  /-- Raised by `boot`, never by `step`: the launch parameters are not well-formed (log entry 2). Safe. -/
  | parametersIllFormed
  deriving DecidableEq, Repr

/-- The state after reset under given parameters (R46, R300): no instruction loaded (log entry 5) and no input supplied
yet (log entry 6). -/
def State.resetWith (p : LaunchParams) : State where
  regs := (List.replicate p.nregs 0#32).set p.spIdx (p.word p.spReset)
  pc := 0
  mem := []
  status := .running
  out := []
  inPos := 0
  prog := []
  inChan := { values := [], tail := .nothingYet }
  params := p

/-- The state after reset (R46, R300), every parameter at the value of R10. -/
def State.reset : State := State.resetWith {}

end Sys2Proof.Machine
end

