-- ==== Sys2Proof/Machine/Ops.lean ====
section
/-! DEFINITION. The shared operations of ALC-CORE over its state: register file (spec/40_execution_cycle.md R137), ALU
and next-pc (R140, R141), data memory (spec/20_memory.md R62, R63), channels (spec/10_state.md R45), and the two ways a
step ends a run, a fault and a halt (spec/00_scope.md R12, spec/60_exceptions.md R271). -/

namespace Sys2Proof.Machine

/-- What an instruction, and a step, answers. -/
abbrev Out := Host.Outcome State Fault Refusal

/-! ### Registers and pc -/

/-- `x[i]` (R137). -/
def State.reg (s : State) (i : RegIdx) : Word := s.regs.getD i 0

/-- `x[i] <- v` (R137), of which the register holds its `XLEN` bits. No register is hardwired (R31) and none shares
storage with another (R48). -/
def State.setReg (s : State) (i : RegIdx) (v : Word) : State :=
  { s with regs := s.regs.set i (s.params.fit v) }

/-- The stack pointer `x[6]` (R32). -/
abbrev State.sp (s : State) : Word := s.reg s.params.spIdx

/-- `x[6] <- v` (R32). -/
abbrev State.setSp (s : State) (v : Word) : State := s.setReg s.params.spIdx v

/-- The flags word `x[16]` (R33). -/
abbrev State.flags (s : State) : Word := s.reg s.params.flagsIdx

/-- `x[16] <- v` (R33). -/
abbrev State.setFlags (s : State) (v : Word) : State := s.setReg s.params.flagsIdx v

/-- `pc <- t` (R12), of which the pc holds its `PC_WIDTH` bits (R36). -/
def State.setPc (s : State) (t : Word) : State := { s with pc := s.params.pcFit t }

/-- The default next pc, `pc + 4` mod 2^32, where 4 is the instruction length `ILEN` and 32 is `PC_WIDTH` (R36, R90, R135). -/
def fallthru (p : LaunchParams) (pc : Word) : Word := p.pcFit (pc + BitVec.ofNat 32 p.ilen)

/-- A branch or call target: the instruction's own address plus the unscaled immediate, mod 2^32, where 32 is
`PC_WIDTH` (R36, R141). -/
def target (p : LaunchParams) (pc imm : Word) : Word := p.pcFit (pc + imm)

/-- The end of an instruction that does not branch (R133 step 5, R135). -/
def State.advance (s : State) : State := s.setPc (fallthru s.params s.pc)

/-! ### ALU (R139, R140) -/

/-- `alu_add` (R140). -/
def aluAdd (p : LaunchParams) (a b : Word) : Word := p.word ((a.toNat : Int) + b.toNat)

/-- `alu_sub` (R140). -/
def aluSub (p : LaunchParams) (a b : Word) : Word := p.word ((a.toNat : Int) - b.toNat)

/-- `alu_mul` (R140): the low `XLEN` bits of the product. -/
def aluMul (p : LaunchParams) (a b : Word) : Word := p.word (p.signed a * p.signed b)

/-- `alu_shr1` (R140): a logical shift by `SHR_AMOUNT`. -/
def aluShr1 (p : LaunchParams) (a : Word) : Word := p.word ((a.toNat / 2 ^ p.shrAmount : Nat) : Int)

/-! ### Data memory -/

/-- What a byte that no write has touched reads as (R46, R72). -/
def Memory.resetByte : Byte := 0

/-- One byte of data memory (R72). -/
def Memory.read : Memory → Nat → Byte
  | [], _ => Memory.resetByte
  | c :: m, a => if c.1 = a then c.2 else Memory.read m a

/-- Lists a byte at its place by rising address. -/
def Memory.listByte : Memory → Nat → Byte → Memory
  | [], a, b => [(a, b)]
  | c :: m, a, b => if a < c.1 then (a, b) :: c :: m else c :: Memory.listByte m a b

/-- Takes an address off the list. -/
def Memory.unlist (m : Memory) (a : Nat) : Memory := m.filter (fun c => c.1 ≠ a)

/-- Writes one byte and keeps the canonical form: a byte at its reset value is not listed. -/
def Memory.write (m : Memory) (a : Nat) (b : Byte) : Memory :=
  if b = Memory.resetByte then m.unlist a else (m.unlist a).listByte a b

/-- The little-endian word at `a` to `a+3` (R60, R62). -/
def Memory.readWord (m : Memory) (a : Nat) : Word :=
  m.read (a + 3) ++ m.read (a + 2) ++ m.read (a + 1) ++ m.read a

/-- Byte `k` of a word, bits `8k+7:8k` (R60). -/
def wordByte (v : Word) (k : Nat) : Byte := v.extractLsb' (8 * k) 8

/-- Stores a word at `a` to `a+3`, little-endian (R60, R63). -/
def Memory.writeWord (m : Memory) (a : Nat) (v : Word) : Memory :=
  (((m.write a (wordByte v 0)).write (a + 1) (wordByte v 1)).write (a + 2) (wordByte v 2)).write (a + 3) (wordByte v 3)

/-- The bounds check of a 4-byte access at an exact integer address (R62, R63, R64). -/
def inBounds (p : LaunchParams) (a : Int) : Bool := decide (0 ≤ a) && decide (a + 4 ≤ (p.memSize : Int))

/-- Replaces data memory. -/
def State.setMem (s : State) (m : Memory) : State := { s with mem := m }

/-! ### Ending a run -/

/-- `raise kind` (R12, R271): the status records the kind and the pc of the faulting instruction, and nothing else of the
state before the instruction changes. It is the one way an instruction or a fetch faults; there is no handler (R272)
and no return from a fault (R273). -/
def takeFault (kind : FaultKind) (s : State) : Out := .next { s with status := .faulted kind s.pc }

/-- `halt(reason)` (R12): the status records the reason, and nothing else changes (R132, R231). -/
def haltWith (reason : HaltReason) (s : State) : Out := .next { s with status := .halted reason }

/-! ### Accesses that may fault -/

/-- `MemRead(a, 4)` and what the instruction goes on with (R62). -/
def withMemRead (a : Int) (s : State) (k : Word → Out) : Out :=
  if inBounds s.params a then k (s.mem.readWord a.toNat) else takeFault (.memoryOutOfBounds a) s

/-- `MemWrite(a, 4, v)` and what the instruction goes on with (R63). A fault writes no byte. -/
def withMemWrite (a : Int) (v : Word) (s : State) (k : State → Out) : Out :=
  if inBounds s.params a then k (s.setMem (s.mem.writeWord a.toNat v)) else takeFault (.memoryOutOfBounds a) s

/-! ### Channels -/

/-- `emit(v)` (R12, R45). -/
def State.emit (s : State) (v : Word) : State := { s with out := s.out ++ [v] }

/-- What `receive()` finds at the read position (R12, R252). -/
inductive Received where
  | value (v : Word)
  | endOfInput
  | notAnInteger
  | nothingYet
  deriving DecidableEq, Repr

/-- The item at the read position of `in_chan` (R45, R252). -/
def State.receive (s : State) : Received :=
  match s.inChan.values[s.inPos]? with
  | some v => .value v
  | none =>
    match s.inChan.tail with
    | .nothingYet => .nothingYet
    | .endOfInput => .endOfInput
    | .notAnInteger => .notAnInteger

/-- Moves the read position past the item just received (R45). -/
def State.consume (s : State) : State := { s with inPos := s.inPos + 1 }

end Sys2Proof.Machine
end

