-- ==== Sys2Proof/Machine/Operands.lean ====
section
/-! DEFINITION. The operand forms of ALC-CORE: a checked register field (spec/40_execution_cycle.md R133 step 2, R136), and the
address of a data access, an exact integer (spec/20_memory.md R64). -/

namespace Sys2Proof.Machine

/-- The register that a used field names, where it passes the check of R136. -/
def checkField (p : LaunchParams) (f : RegField) : Option RegIdx :=
  if p.nregs ≤ f then none
  else if f = p.flagsIdx ∧ p.flagsOperand = .fault then none
  else some f

/-- Checks one used field, and goes on with the register it names (R133 step 2, R136). -/
def withField (which : FieldName) (f : RegField) (s : State) (k : RegIdx → Out) : Out :=
  match checkField s.params f with
  | some i => k i
  | none => takeFault (.illegalRegister f which) s

/-- Checks the field ra and then the field rb (R133 step 2, R274 items 5 and 6). -/
def withFields (ra rb : RegField) (s : State) (k : RegIdx → RegIdx → Out) : Out :=
  withField .ra ra s fun i => withField .rb rb s fun j => k i j

/-- Register plus displacement, without wrap-around (R64). -/
def effAddr (p : LaunchParams) (base imm : Word) : Int := p.signed base + imm.toInt

/-- Where a push stores, `s(x[6]) - 4` (R64, R230, R232). -/
def pushAddr (p : LaunchParams) (sp : Word) : Int := p.signed sp - 4

/-- Where a pop reads, `s(x[6])` (R64, R231, R233). -/
def popAddr (p : LaunchParams) (sp : Word) : Int := p.signed sp

/-- Stores a word below the stack top and moves the stack pointer there (R230, R232): the common part of a push. -/
def withPush (v : Word) (s : State) (k : State → Out) : Out :=
  withMemWrite (pushAddr s.params s.sp) v s fun s1 => k (s1.setSp (s.params.word (pushAddr s.params s.sp)))

end Sys2Proof.Machine
end

