-- ==== Sys2Proof/Machine/Arith.lean ====
section
/-! DEFINITION. The arithmetic instructions (spec/41_arithmetic.md R160 to R164): no flag, no memory, pc + 4. -/

namespace Sys2Proof.Machine

/-- `subl rA, imm` (R160). -/
def execSubl (ra : RegField) (imm : Word) (s : State) : Out :=
  withField .ra ra s fun i => .next (s.setReg i (aluSub s.params (s.reg i) imm)).advance

/-- `addl_reg_reg rA, rB` (R161). -/
def execAddlRegReg (ra rb : RegField) (s : State) : Out :=
  withFields ra rb s fun i j => .next (s.setReg j (aluAdd s.params (s.reg i) (s.reg j))).advance

/-- `addl_imm_reg rA, imm` (R162). -/
def execAddlImmReg (ra : RegField) (imm : Word) (s : State) : Out :=
  withField .ra ra s fun i => .next (s.setReg i (aluAdd s.params (s.reg i) imm)).advance

/-- `imull rA, rB` (R163). -/
def execImull (ra rb : RegField) (s : State) : Out :=
  withFields ra rb s fun i j => .next (s.setReg j (aluMul s.params (s.reg i) (s.reg j))).advance

/-- `shrl rA` (R164). -/
def execShrl (ra : RegField) (s : State) : Out :=
  withField .ra ra s fun i => .next (s.setReg i (aluShr1 s.params (s.reg i))).advance

end Sys2Proof.Machine
end

