-- ==== Sys2Proof/Machine/Flags.lean ====
section
/-! DEFINITION. The flags word of ALC-CORE (spec/10_state.md R37), the condition-flag calculator
(spec/43_compare_branch.md R200) and the branch conditions (R203 to R207). -/

namespace Sys2Proof.Machine

/-- The Carry flag of a flags word (R37). -/
def cf (p : LaunchParams) (fl : Word) : Bool := fl.getLsbD p.cfBit

/-- The Zero flag of a flags word (R37). -/
def zf (p : LaunchParams) (fl : Word) : Bool := fl.getLsbD p.zfBit

/-- The Sign flag of a flags word (R37). -/
def sf (p : LaunchParams) (fl : Word) : Bool := fl.getLsbD p.sfBit

/-- The Overflow flag of a flags word (R37). -/
def ovf (p : LaunchParams) (fl : Word) : Bool := fl.getLsbD p.ofBit

/-- One flag at its place in a flags word, `zext_32(b) << at`. -/
def flagAt (b : Bool) (at_ : Nat) : Word := (BitVec.ofBool b).setWidth 32 <<< at_

/-- The flags of the subtraction `b - a`, all 32 bits (R200, D10). -/
def cmpFlags (p : LaunchParams) (b a : Word) : Word :=
  let r := aluSub p b a
  let carry := decide (b.toNat < a.toNat)
  let zero := decide (r = 0)
  let sign := decide (p.signed r < 0)
  let overflow :=
    (decide (p.signed b < 0) != decide (p.signed a < 0)) && (decide (p.signed r < 0) != decide (p.signed b < 0))
  flagAt overflow p.ofBit ||| flagAt sign p.sfBit ||| flagAt zero p.zfBit ||| flagAt carry p.cfBit

/-- `je` (R203). -/
def condE (p : LaunchParams) (fl : Word) : Bool := zf p fl

/-- `jl` (R204). -/
def condL (p : LaunchParams) (fl : Word) : Bool := sf p fl ^^ ovf p fl

/-- `jle` (R205). -/
def condLe (p : LaunchParams) (fl : Word) : Bool := (sf p fl ^^ ovf p fl) || zf p fl

/-- `jge` (R206). -/
def condGe (p : LaunchParams) (fl : Word) : Bool := !(sf p fl ^^ ovf p fl)

/-- `jbe` (R207). -/
def condBe (p : LaunchParams) (fl : Word) : Bool := cf p fl || zf p fl

end Sys2Proof.Machine
end

