-- ==== Sys2Proof/Machine/Branch.lean ====
section
/-! DEFINITION. Compare, the conditional jumps and the unconditional jump (spec/43_compare_branch.md R201 to R208). -/

namespace Sys2Proof.Machine

/-- `cmpl rA, rB` (R201): the flags of `x[rb] - x[ra]`. -/
def execCmpl (ra rb : RegField) (s : State) : Out :=
  withFields ra rb s fun i j => .next (s.setFlags (cmpFlags s.params (s.reg j) (s.reg i))).advance

/-- The common pseudocode of the jumps (R141, R202). -/
def jumpIf (taken : Bool) (imm : Word) (s : State) : Out :=
  .next (s.setPc (if taken then target s.params s.pc imm else fallthru s.params s.pc))

/-- `je imm` (R203). -/
def execJe (imm : Word) (s : State) : Out := jumpIf (condE s.params s.flags) imm s

/-- `jl imm` (R204). -/
def execJl (imm : Word) (s : State) : Out := jumpIf (condL s.params s.flags) imm s

/-- `jle imm` (R205). -/
def execJle (imm : Word) (s : State) : Out := jumpIf (condLe s.params s.flags) imm s

/-- `jge imm` (R206). -/
def execJge (imm : Word) (s : State) : Out := jumpIf (condGe s.params s.flags) imm s

/-- `jbe imm` (R207). -/
def execJbe (imm : Word) (s : State) : Out := jumpIf (condBe s.params s.flags) imm s

/-- `jmp imm` (R208). -/
def execJmp (imm : Word) (s : State) : Out := jumpIf true imm s

end Sys2Proof.Machine
end

