-- ==== Sys2Proof/Machine/Io.lean ====
section
/-! DEFINITION. The I/O instructions (spec/45_io.md R250, R252). -/

namespace Sys2Proof.Machine

/-- `printr rA` (R250). -/
def execPrintr (ra : RegField) (s : State) : Out :=
  withField .ra ra s fun i => .next (s.emit (s.reg i)).advance

/-- What `readr` does where the input stream offers no integer and never will (R252, `READ_EOF_POLICY`). -/
def inputEnded (s : State) : Out :=
  match s.params.readEof with
  | .fault => takeFault .inputExhausted s

/-- `readr rA` (R252): the field is checked before the core waits. With nothing supplied yet no step is enabled. -/
def execReadr (ra : RegField) (s : State) : Out :=
  withField .ra ra s fun i =>
    match s.receive with
    | .value v => .next (s.consume.setReg i v).advance
    | .endOfInput => inputEnded s
    | .notAnInteger => inputEnded s
    | .nothingYet => .fault .waitingForInput

end Sys2Proof.Machine
end

