-- ==== Sys2Proof/Machine/Move.lean ====
section
/-! DEFINITION. The data-movement instructions (spec/42_data_movement.md R180 to R183): no flag, pc + 4. -/

namespace Sys2Proof.Machine

/-- `movl_reg_reg rA, rB` (R180). -/
def execMovlRegReg (ra rb : RegField) (s : State) : Out :=
  withFields ra rb s fun i j => .next (s.setReg j (s.reg i)).advance

/-- `movl_deref_reg rA, rB, imm` (R181). -/
def execMovlDerefReg (ra rb : RegField) (imm : Word) (s : State) : Out :=
  withFields ra rb s fun i j =>
    withMemRead (effAddr s.params (s.reg i) imm) s fun v => .next (s.setReg j v).advance

/-- `movl_reg_deref rA, rB, imm` (R182): the base is the second field. -/
def execMovlRegDeref (ra rb : RegField) (imm : Word) (s : State) : Out :=
  withFields ra rb s fun i j =>
    withMemWrite (effAddr s.params (s.reg j) imm) (s.reg i) s fun s1 => .next s1.advance

/-- `movl_imm_reg rA, imm` (R183). -/
def execMovlImmReg (ra : RegField) (imm : Word) (s : State) : Out :=
  withField .ra ra s fun i => .next (s.setReg i imm).advance

end Sys2Proof.Machine
end

