-- ==== Sys2Proof/Machine/Stack.lean ====
section
/-! DEFINITION. The call, return and stack instructions (spec/44_call_stack.md R230 to R233). -/

namespace Sys2Proof.Machine

/-- `call imm` (R230): the target is relative to the call's own address. -/
def execCall (imm : Word) (s : State) : Out :=
  withPush (fallthru s.params s.pc) s fun s1 => .next (s1.setPc (target s.params s.pc imm))

/-- `ret` (R231): on the empty stack a halt, tested before the memory read. -/
def execRet (s : State) : Out :=
  if s.sp = s.params.word s.params.spReset then haltWith .returnFromEmptyStack s
  else withMemRead (popAddr s.params s.sp) s fun v => .next ((s.setSp (s.sp + 4)).setPc v)

/-- `pushl rA` (R232): the value is read before r6 changes. -/
def execPushl (ra : RegField) (s : State) : Out :=
  withField .ra ra s fun i => withPush (s.reg i) s fun s1 => .next s1.advance

/-- `popl rA` (R233): the value goes into ra first, and then r6 is read, so `popl r6` leaves the value plus 4 (D20). -/
def execPopl (ra : RegField) (s : State) : Out :=
  withField .ra ra s fun i =>
    withMemRead (popAddr s.params s.sp) s fun v =>
      let s1 := s.setReg i v
      .next (s1.setSp (s1.sp + 4)).advance

end Sys2Proof.Machine
end

