-- ==== Sys2Proof/Machine/Dispatch.lean ====
section
/-! DEFINITION. The dispatch of a decoded instruction to its meaning (spec/40_execution_cycle.md R133 step 4): one arm per row of
the opcode map (spec/30_encoding.md R97). -/

namespace Sys2Proof.Machine

def exec (i : Instr) (s : State) : Host.Outcome State Fault Refusal :=
  match i with
  | .subl ra imm => Sys2Proof.Machine.execSubl ra imm s
  | .addlRegReg ra rb => Sys2Proof.Machine.execAddlRegReg ra rb s
  | .addlImmReg ra imm => Sys2Proof.Machine.execAddlImmReg ra imm s
  | .imull ra rb => Sys2Proof.Machine.execImull ra rb s
  | .shrl ra => Sys2Proof.Machine.execShrl ra s
  | .movlRegReg ra rb => Sys2Proof.Machine.execMovlRegReg ra rb s
  | .movlDerefReg ra rb imm => Sys2Proof.Machine.execMovlDerefReg ra rb imm s
  | .movlRegDeref ra rb imm => Sys2Proof.Machine.execMovlRegDeref ra rb imm s
  | .movlImmReg ra imm => Sys2Proof.Machine.execMovlImmReg ra imm s
  | .cmpl ra rb => Sys2Proof.Machine.execCmpl ra rb s
  | .je imm => Sys2Proof.Machine.execJe imm s
  | .jl imm => Sys2Proof.Machine.execJl imm s
  | .jle imm => Sys2Proof.Machine.execJle imm s
  | .jge imm => Sys2Proof.Machine.execJge imm s
  | .jbe imm => Sys2Proof.Machine.execJbe imm s
  | .jmp imm => Sys2Proof.Machine.execJmp imm s
  | .call imm => Sys2Proof.Machine.execCall imm s
  | .ret => Sys2Proof.Machine.execRet s
  | .pushl ra => Sys2Proof.Machine.execPushl ra s
  | .popl ra => Sys2Proof.Machine.execPopl ra s
  | .printr ra => Sys2Proof.Machine.execPrintr ra s
  | .readr ra => Sys2Proof.Machine.execReadr ra s

end Sys2Proof.Machine
end

