-- ==== Sys2Proof/Machine/Cycle.lean ====
section
/-! DEFINITION. The execution cycle (spec/40_execution_cycle.md R130 to R134, spec/60_exceptions.md R274): fetch from the
instruction array, the checks in their order, and the dispatch. -/

namespace Sys2Proof.Machine

/-- What a fetch finds. -/
inductive Fetched where
  /-- The pc is past the last instruction (R132). -/
  | endOfProgram
  /-- The pc is not a multiple of 4 and the policy makes that a fault (R131). -/
  | misaligned
  /-- The instruction word that contains the pc (R131, R35). -/
  | word (w : Word)
  deriving DecidableEq, Repr

/-- `N` (R10): the number of instructions loaded. -/
abbrev State.numInstrs (s : State) : Nat := s.prog.length

/-- The index of the instruction word that contains the pc, `u(pc) div 4` (R131). -/
abbrev State.fetchIndex (s : State) : Nat := s.pc.toNat / s.params.ilen

/-- The fetch, with its two checks in the order of R274 items 2 and 3. -/
def State.fetch (s : State) : Fetched :=
  if s.params.ilen * s.numInstrs ≤ s.pc.toNat then .endOfProgram
  else if s.params.pcMisalign = .fault ∧ s.pc.toNat % s.params.ilen ≠ 0 then .misaligned
  else .word (s.prog.getD s.fetchIndex 0)

/-- One step of a running core (R133, R274 items 2 to 7). -/
def runCycle (s : State) : Out :=
  match s.fetch with
  | .endOfProgram => haltWith .endOfProgram s
  | .misaligned => takeFault .misalignedPC s
  | .word w =>
    match decodeWord s.params w with
    | none => takeFault (.illegalOpcode (decode s.params w).opcode) s
    | some i => exec i s

/-- One step (R130): only a running core has one (R134, R274 item 1). -/
def cycle (s : State) : Out :=
  match s.status with
  | .running => runCycle s
  | .halted _ => .fault .runEnded
  | .faulted _ _ => .fault .runEnded

/-- Puts a word at an index of an instruction array, extending the array with zero words up to it. -/
def placeWord (prog : List Word) (k : Nat) (w : Word) : List Word :=
  (prog ++ List.replicate (k + 1 - prog.length) 0).set k w

/-- The state with a word where the next fetch reads, and a core that fetches (log entry 5). -/
def State.withFetched (s : State) (w : Word) : State :=
  { s with prog := placeWord s.prog s.fetchIndex w, status := .running }

end Sys2Proof.Machine
end

