-- ==== Sys2Proof/Machine/Step.lean ====
section
/-! DEFINITION. The step function of ALC-CORE (spec/40_execution_cycle.md R130) and the placement of an instruction where the
step fetches it. -/

namespace Sys2Proof.Machine

/-- One step of the core (R7, R130). -/
def step (s : State) : Host.Outcome State Fault Refusal := cycle s

/-- `s` with the instruction word of the opcode table's numbering at the index `u(pc) div 4` of the instruction array,
running (log entry 5). -/
def State.withFetchWord (s : State) (nbits w : Nat) : State := s.withFetched (tableWord nbits w)

end Sys2Proof.Machine
end

