-- ==== Sys2Proof/Machine/Driver.lean ====
section
/-! DEFINITION. The host's side of the block boundary (spec/00_scope.md R6, R8; spec/70_reset_and_hazards.md R302;
spec/45_io.md R251, R253): loading an image, answering a read, the text of one output line, and what is reported at the
end of a run. No step calls anything of this file. -/

namespace Sys2Proof.Machine

/-- The boot sequence up to the first step (R302): check the image length, form the words, apply reset. An image whose
length is not a multiple of `ILEN` = 4 is refused and the core never starts (R8, D31), as is one past the bound on `N`
(D34) and one under ill-formed parameters (log entry 2). -/
def boot (params : LaunchParams) (image : List Byte) (inChan : InChan) : Host.Outcome State Fault Refusal :=
  if params.wf then
    match imageWords params image with
    | none => .refused .imageLengthNotMultiple
    | some prog =>
      if prog.length ≤ params.maxInstrs then .next { State.resetWith params with prog, inChan }
      else .refused .imageTooLong
  else .refused .parametersIllFormed

/-- The host supplies one more value, unless it has already ended the input (R253, log entry 7). -/
def hostSupply (v : Word) (s : State) : State :=
  match s.inChan.tail with
  | .nothingYet => { s with inChan := { s.inChan with values := s.inChan.values ++ [v] } }
  | .endOfInput => s
  | .notAnInteger => s

/-- The host says what follows the values supplied, unless it has already ended the input (R253, log entry 7). -/
def hostSignal (t : InTail) (s : State) : State :=
  match s.inChan.tail with
  | .nothingYet => { s with inChan := { s.inChan with tail := t } }
  | .endOfInput => s
  | .notAnInteger => s

/-- The line the host prints for one emitted value (R251): signed decimal, then unpadded lowercase hexadecimal. -/
def printLine (p : LaunchParams) (v : Word) : String :=
  toString (p.signed v) ++ " (0x" ++ String.ofList (Nat.toDigits 16 v.toNat) ++ ")\n"

/-- The standard output of a run: one line per emitted value, in order (R250, R251). -/
def stdoutText (p : LaunchParams) (out : List Word) : String := String.join (out.map (printLine p))

/-- The name of a fault kind (R270). -/
def FaultKind.name : FaultKind → String
  | .illegalOpcode _ => "IllegalOpcode"
  | .illegalRegister _ _ => "IllegalRegister"
  | .memoryOutOfBounds _ => "MemoryOutOfBounds"
  | .inputExhausted => "InputExhausted"
  | .misalignedPC => "MisalignedPC"

/-- The code of a fault kind (R270). -/
def FaultKind.code : FaultKind → Nat
  | .illegalOpcode _ => 1
  | .illegalRegister _ _ => 2
  | .memoryOutOfBounds _ => 3
  | .inputExhausted => 4
  | .misalignedPC => 5

/-- The host's exit code at the end of a run, none while it runs (R253, D35). -/
def exitCode : RunStatus → Option Nat
  | .running => none
  | .halted _ => some 0
  | .faulted _ _ => some 1

/-- The host's message at the end of a run (R253, D35). -/
def exitMessage : RunStatus → Option String
  | .running => none
  | .halted _ => none
  | .faulted kind _ => some ("Error: " ++ kind.name)

end Sys2Proof.Machine
end

