-- ==== Sys2Proof/Safety.lean ====
section
/-! DEFINITION. The terms in which claims about ALC-CORE are stated: when a register field and a data address are legal, what
a frame says, and the invariant of a run. -/

namespace Sys2Proof.Machine

/-! ### Legal operands -/

/-- The shape of every state of a run: the parameters are well-formed, the register file has `NREGS` entries, and a
register and the pc hold no bit above their widths, 32 by default (R10, R30, R34). -/
structure State.Shaped (s : State) : Prop where
  params : s.params.wf
  regs : s.regs.length = s.params.nregs
  regsFit : ∀ v ∈ s.regs, v.toNat < 2 ^ s.params.xlen
  pcFits : s.pc.toNat < 2 ^ s.params.pcWidth

/-- The used field `f` passes the check of R136 and names register `i`: `FLAGS_IDX` = 16 passes only under the
alternative policy. -/
def Names (s : State) (f : RegField) (i : RegIdx) : Prop :=
  f = i ∧ i < s.params.nregs ∧ (i = s.params.flagsIdx → s.params.flagsOperand = .asRegister)

/-- The used field `f` fails the check of R136: it holds `NREGS` = 17 or more, or `FLAGS_IDX` = 16 under the default
policy. -/
def IllegalField (s : State) (f : RegField) : Prop :=
  s.params.nregs ≤ f ∨ (f = s.params.flagsIdx ∧ s.params.flagsOperand = .fault)

/-- All four bytes of a data access at `a` lie in [0, `MEM_SIZE`), which is [0, 1024) (R62). -/
def InSpace (s : State) (a : Int) : Prop := 0 ≤ a ∧ a + 4 ≤ (s.params.memSize : Int)

/-- The address of the next instruction, `pc + 4` mod 2^32, where 4 is the instruction length `ILEN` and 32 is `PC_WIDTH`
(R36, R90, R135). -/
def nextPc (s : State) : Word := s.params.pcFit (s.pc + BitVec.ofNat 32 s.params.ilen)

/-! ### What is fetched, and which operands an instruction uses -/

/-- A running core fetches the word `w`: the pc is inside the program, `w` stands at index `u(pc) div 4`, and the pc is a
multiple of 4 where the policy asks for that (R131, R35), with 4 the instruction length `ILEN`. -/
def FetchesWord (s : State) (w : Word) : Prop :=
  s.status = .running ∧ s.pc.toNat < s.params.ilen * s.prog.length ∧ s.prog[s.pc.toNat / s.params.ilen]? = some w ∧
    (s.params.pcMisalign = .truncate ∨ s.pc.toNat % s.params.ilen = 0)

/-- A running core fetches a word that decodes to `i` (R95, R131). -/
def FetchesInstr (s : State) (i : Instr) : Prop := ∃ w, FetchesWord s w ∧ decodeWord s.params w = some i

/-- The field ra of an instruction, where the "fields used" column of R97 has it. -/
def raField : Instr → Option RegField
  | .subl ra _ => some ra
  | .addlRegReg ra _ => some ra
  | .addlImmReg ra _ => some ra
  | .imull ra _ => some ra
  | .shrl ra => some ra
  | .movlRegReg ra _ => some ra
  | .movlDerefReg ra _ _ => some ra
  | .movlRegDeref ra _ _ => some ra
  | .movlImmReg ra _ => some ra
  | .cmpl ra _ => some ra
  | .je _ => none
  | .jl _ => none
  | .jle _ => none
  | .jge _ => none
  | .jbe _ => none
  | .jmp _ => none
  | .call _ => none
  | .ret => none
  | .pushl ra => some ra
  | .popl ra => some ra
  | .printr ra => some ra
  | .readr ra => some ra

/-- The field rb of an instruction, where the "fields used" column of R97 has it. -/
def rbField : Instr → Option RegField
  | .subl _ _ => none
  | .addlRegReg _ rb => some rb
  | .addlImmReg _ _ => none
  | .imull _ rb => some rb
  | .shrl _ => none
  | .movlRegReg _ rb => some rb
  | .movlDerefReg _ rb _ => some rb
  | .movlRegDeref _ rb _ => some rb
  | .movlImmReg _ _ => none
  | .cmpl _ rb => some rb
  | .je _ => none
  | .jl _ => none
  | .jle _ => none
  | .jge _ => none
  | .jbe _ => none
  | .jmp _ => none
  | .call _ => none
  | .ret => none
  | .pushl _ => none
  | .popl _ => none
  | .printr _ => none
  | .readr _ => none

/-- The register field of an instruction that R136 checks under a name. -/
def usedField (i : Instr) : FieldName → Option RegField
  | .ra => raField i
  | .rb => rbField i

/-- The instruction cannot name the flags register in a field it uses: the policy forbids it (R33, R136), or no used field
holds `FLAGS_IDX`. -/
def FlagsNotNamed (s : State) (i : Instr) : Prop :=
  s.params.flagsOperand = .fault ∨ ∀ which f, usedField i which = some f → f ≠ s.params.flagsIdx

/-- The instructions that access data memory (R49, R270). -/
def accessesMemory : Instr → Bool
  | .subl _ _ => false
  | .addlRegReg _ _ => false
  | .addlImmReg _ _ => false
  | .imull _ _ => false
  | .shrl _ => false
  | .movlRegReg _ _ => false
  | .movlDerefReg _ _ _ => true
  | .movlRegDeref _ _ _ => true
  | .movlImmReg _ _ => false
  | .cmpl _ _ => false
  | .je _ => false
  | .jl _ => false
  | .jle _ => false
  | .jge _ => false
  | .jbe _ => false
  | .jmp _ => false
  | .call _ => true
  | .ret => true
  | .pushl _ => true
  | .popl _ => true
  | .printr _ => false
  | .readr _ => false

/-- The conditional jumps (R39). -/
def isConditionalJump : Instr → Bool
  | .subl _ _ => false
  | .addlRegReg _ _ => false
  | .addlImmReg _ _ => false
  | .imull _ _ => false
  | .shrl _ => false
  | .movlRegReg _ _ => false
  | .movlDerefReg _ _ _ => false
  | .movlRegDeref _ _ _ => false
  | .movlImmReg _ _ => false
  | .cmpl _ _ => false
  | .je _ => true
  | .jl _ => true
  | .jle _ => true
  | .jge _ => true
  | .jbe _ => true
  | .jmp _ => false
  | .call _ => false
  | .ret => false
  | .pushl _ => false
  | .popl _ => false
  | .printr _ => false
  | .readr _ => false

/-! ### What a step leaves alone -/

/-- Every byte of data memory reads as before. -/
def SameBytes (s t : State) : Prop := ∀ a : Nat, t.mem.read a = s.mem.read a

/-- Every byte of data memory outside the four bytes at `a` reads as before. -/
def SameBytesOutside (a : Int) (s t : State) : Prop :=
  ∀ b : Nat, ((b : Int) < a ∨ a + 4 ≤ b) → t.mem.read b = s.mem.read b

/-- The four bytes of `v` stand at `a` to `a+3`, little-endian (R60, R63). -/
def HoldsWord (t : State) (a : Nat) (v : Word) : Prop :=
  t.mem.read a = v.extractLsb' 0 8 ∧ t.mem.read (a + 1) = v.extractLsb' 8 8 ∧
    t.mem.read (a + 2) = v.extractLsb' 16 8 ∧ t.mem.read (a + 3) = v.extractLsb' 24 8

/-- Every register but those in `d` holds what it held, and the register file has as many entries as before. -/
def SameRegsBut (d : List RegIdx) (s t : State) : Prop :=
  t.regs.length = s.regs.length ∧ ∀ j : RegIdx, j ∉ d → t.reg j = s.reg j

/-- The launch parameters, which no step changes (R43, R50). -/
def SameLaunch (s t : State) : Prop := t.prog = s.prog ∧ t.inChan = s.inChan ∧ t.params = s.params

/-- The channels' positions are as before (R45). -/
def SameChannels (s t : State) : Prop := t.out = s.out ∧ t.inPos = s.inPos

/-- Status, channels and launch parameters are as before. -/
def SameRest (s t : State) : Prop := t.status = s.status ∧ SameChannels s t ∧ SameLaunch s t

/-- The whole effect of an instruction that writes register `i` with `v`, of which the register holds `XLEN` bits (all 32
by default), and goes on at pc + 4. -/
def WritesReg (s : State) (i : RegIdx) (v : Word) (t : State) : Prop :=
  t.reg i = s.params.fit v ∧ SameRegsBut [i] s t ∧ t.pc = nextPc s ∧ SameBytes s t ∧ SameRest s t

/-- The whole effect of an instruction that only sets the pc, which holds `PC_WIDTH` bits (all 32 by default). -/
def GoesTo (s : State) (p : Word) (t : State) : Prop :=
  t.pc = s.params.pcFit p ∧ SameRegsBut [] s t ∧ SameBytes s t ∧ SameRest s t

/-- A fault of the spec (R271): the status records the kind and the pc, and nothing else changes. -/
def faultedAt (kind : FaultKind) (s : State) : State := { s with status := .faulted kind s.pc }

/-- Under the default parameters, every word whose bits 31:27 hold `op` decodes to `f` of its fields, whatever its other
bits hold (R91, R97, R98); and under any well-formed parameters, every word whose opcode field holds the value that
`OPCODE_VALUES` gives row `op` of the opcode map does so with the fields at their own places (R10). -/
def OpcodeDecodesTo (op : Nat) (f : RegField → RegField → Word → Instr) : Prop :=
  (∀ w : Word, (w.extractLsb' 27 5).toNat = op →
    decodeWord {} w =
      some (f (w.extractLsb' 22 5).toNat (w.extractLsb' 17 5).toNat ((w.extractLsb' 0 16).signExtend 32))) ∧
  ∀ (p : LaunchParams) (w : Word), p.wf → p.opcodeValues[op]? = some (bitField p.opcodeHi p.opcodeLo w) →
    decodeWord p w =
      some (f (bitField p.raHi p.raLo w) (bitField p.rbHi p.rbLo w)
        (sext32 (fieldWidth p.immHi p.immLo) (bitField p.immHi p.immLo w)))

/-! ### The invariant of a run -/

/-- Only the four flag bits of a flags word, 0, 6, 7 and 11 by default, are set (R37). -/
def OnlyFlagBits (p : LaunchParams) (fl : Word) : Prop :=
  ∀ k : Nat, fl.getLsbD k = true → k = p.cfBit ∨ k = p.zfBit ∨ k = p.sfBit ∨ k = p.ofBit

/-- The recorded cause of a fault is one (R270). -/
def FaultKind.sound (s : State) : FaultKind → Prop
  | .illegalOpcode op => op ∉ s.params.opcodeValues
  | .illegalRegister f _ => IllegalField s f
  | .memoryOutOfBounds a => ¬ InSpace s a
  | .inputExhausted => True
  | .misalignedPC => s.params.pcMisalign = .fault

/-- What holds at reset and after every step. -/
structure State.Inv (s : State) : Prop where
  /-- The parameters are well-formed, the register file has its size, and registers and pc their widths (R10, R30, R34). -/
  shaped : s.Shaped
  /-- Data memory is in canonical form. The form is the model's choice (log entry 9), no rule of the spec. -/
  memCanonical : s.mem.wf
  /-- No byte outside [0, `MEM_SIZE`) is listed (R49, R69). -/
  memInRange : s.mem.inRange s.params.memSize
  /-- The unused bits of the flags word are 0 under the default policy (R37, D26). -/
  flagBits : s.params.flagsOperand = .fault → OnlyFlagBits s.params s.flags
  /-- The read position is not past the supplied values (R45). -/
  inPosBound : s.inPos ≤ s.inChan.values.length
  /-- `N` keeps its bound (R10, D34). -/
  progBound : s.prog.length ≤ s.params.maxInstrs
  /-- A fault record names the pc where the run stands, and its cause is one (R270, R271). -/
  faultRecord : ∀ kind p, s.status = .faulted kind p → p = s.pc ∧ kind.sound s
  /-- At the end-of-program halt the pc is past the last instruction (R132). -/
  endOfProgram : s.status = .halted .endOfProgram → s.params.ilen * s.prog.length ≤ s.pc.toNat
  /-- At the return halt the stack is empty (R231). -/
  emptyStack : s.status = .halted .returnFromEmptyStack → s.sp = s.params.word s.params.spReset

/-- The states that a run from `s` passes through (R142). -/
inductive Reaches (s : State) : State → Prop where
  | start : Reaches s s
  | next {t u : State} : Reaches s t → step t = .next u → Reaches s u

/-- A run from `s` meets no fault of the spec. -/
def FaultFree (s : State) : Prop := ∀ t, Reaches s t → ∀ kind p, t.status ≠ .faulted kind p

end Sys2Proof.Machine
end

