-- ==== Sys2Proof/Certificates/Slice0/Obligations.lean ====
section
/-! DEFINITION. The statements about ALC-CORE for the provers. `Names`, `IllegalField`, `InSpace`, `WritesReg` and the
other words they use are in Safety.lean. They hold for every well-formed choice of the parameters of R10 (`State.Shaped`,
`LaunchParams.wf`), the widths among them: a register holds the low `XLEN` bits of a value (`fit`), the pc the low
`PC_WIDTH` bits (`pcFit`), and `signed` reads `XLEN` bits. `WidthsCutValues` says that at the default of 32 bits nothing
is cut, and `ParameterDefaults` gives the values that the spec's rules print. Where a rule is about those numbers
themselves the statement is about `{}`, the default parameters. -/

open Sys2Proof Sys2Proof.Machine

/-! ### Encoding (spec/30_encoding.md) -/

/-- Decode and encode agree for every well-formed instruction, word by word and byte by byte, in both byte orders and
under any well-formed parameters (section 2, R95 to R97, and spec/20_memory.md R61). -/
def Obligations.DecodeEncodeAgree : Prop :=
  ∀ (p : LaunchParams) (i : Instr), p.wf → i.wellFormed p = true →
    decodeWord p (encode p i) = some i ∧
      ∀ rest : List Byte, decodeBytes p (encodeBytes p i ++ rest) = .ok (i, rest)

/-- The encoder's formula and the round-trip laws of R96. The spec marks the converse (the last clause) as its own
derivation. -/
def Obligations.FieldEncodingRoundTrip : Prop :=
  (∀ (p : LaunchParams) (d : Decoded), p.wf → d.wellFormed p = true → decode p (encodeFields p d) = d) ∧
    (∀ (p : LaunchParams) (d : Decoded), p.wf → d.wellFormed p = true →
      (encodeFields p d).toNat =
        d.opcode * 2 ^ p.opcodeLo + d.ra * 2 ^ p.raLo + d.rb * 2 ^ p.rbLo +
          d.imm.toNat % 2 ^ fieldWidth p.immHi p.immLo * 2 ^ p.immLo) ∧
    ∀ w : Word, encodeFields {} (decode {} w) = w ↔ w.getLsbD 16 = false

/-- R92, under the default field positions: bit 16 does not affect the decoded instruction, the encoder writes it as 0,
and the immediate is bits 15:0 with bit 15 as the sign. -/
def Obligations.BitSixteenIgnored : Prop :=
  (∀ w : Word, decode {} (w ^^^ 0x10000#32) = decode {} w) ∧
    (∀ d : Decoded, (encodeFields {} d).getLsbD 16 = false) ∧
    ∀ w : Word,
      (decode {} w).imm.toInt =
        if w.toNat % 2 ^ 16 < 2 ^ 15 then ((w.toNat % 2 ^ 16 : Nat) : Int) else (w.toNat % 2 ^ 16 : Nat) - 2 ^ 16

/-- R99: the opcode values 22 to 31 (under other parameters, those that `OPCODE_VALUES` leaves out), and no others, name
no operation; a word with such an opcode raises `IllegalOpcode` when the pc reaches it. -/
def Obligations.IllegalOpcodesFaultWhenReached : Prop :=
  (∀ w : Word, decodeWord {} w = none ↔ 22 ≤ (w.extractLsb' 27 5).toNat) ∧
    (∀ (p : LaunchParams) (w : Word), p.wf →
      (decodeWord p w = none ↔ bitField p.opcodeHi p.opcodeLo w ∉ p.opcodeValues)) ∧
    ∀ (s : State) (w : Word) (op : Nat), s.Shaped → FetchesWord s w →
      op = bitField s.params.opcodeHi s.params.opcodeLo w → op ∉ s.params.opcodeValues →
      step s = .next (faultedAt (.illegalOpcode op) s)

/-- R98: words that agree on the opcode and on the fields that the opcode uses decode alike, whatever the unused fields
and the remaining bit hold, and where one of them is fetched, the step is the instruction that the other decodes to: no
unused field is checked. `k` is the row of the opcode map, which is the opcode's number by default. -/
def Obligations.UnusedFieldsAreDontCare : Prop :=
  ∀ (p : LaunchParams) (v w : Word), p.wf →
    bitField p.opcodeHi p.opcodeLo w = bitField p.opcodeHi p.opcodeLo v →
    (∀ k, p.opcodeValues[k]? = some (bitField p.opcodeHi p.opcodeLo v) →
      (k ∈ [0, 1, 2, 3, 4, 5, 6, 7, 8, 9, 18, 19, 20, 21] → bitField p.raHi p.raLo w = bitField p.raHi p.raLo v) ∧
        (k ∈ [1, 3, 5, 6, 7, 9] → bitField p.rbHi p.rbLo w = bitField p.rbHi p.rbLo v) ∧
        (k ∈ [0, 2, 6, 7, 8, 10, 11, 12, 13, 14, 15, 16] → bitField p.immHi p.immLo w = bitField p.immHi p.immLo v)) →
    decodeWord p w = decodeWord p v ∧
      ∀ (s : State) (i : Instr), s.params = p → FetchesWord s w → decodeWord p v = some i → step s = exec i s

/-- Words that the spec prints with the instruction each stands for (R105 and spec/95_test_vectors.md). -/
def Obligations.PrintedWordsDecode : Prop :=
  decodeWord {} 0x40000005#32 = some (.movlImmReg 0 5) ∧
    decodeWord {} 0x1000000A#32 = some (.addlImmReg 0 10) ∧
    decodeWord {} 0xA0000000#32 = some (.printr 0) ∧
    decodeWord {} 0x48C20064#32 = some (.cmpl 3 1) ∧
    decodeWord {} 0x3B00FFF8#32 = some (.movlRegDeref 12 0 (-8)) ∧
    decodeWord {} 0x5800FFF4#32 = some (.jl (-12)) ∧
    decodeWord {} 0x8C000000#32 = some .ret ∧
    decodeWord {} 0xB0000000#32 = none

/-! ### The cycle (spec/40_execution_cycle.md, spec/60_exceptions.md, spec/70_reset_and_hazards.md) -/

/-- A step runs the decoded instruction: where the word that contains the pc decodes to `i`, the step is `exec i`, and
nothing is added around it. -/
def Obligations.StepRunsDecodedInstr : Prop :=
  ∀ (s : State) (w : Word) (i : Instr), FetchesWord s w → decodeWord s.params w = some i → step s = exec i s

/-- Under `PC_MISALIGN_POLICY = fault` a pc that is not a multiple of 4, the instruction
length `ILEN`, raises `MisalignedPC` before the fetch. -/
def Obligations.MisalignedPcFaultsUnderPolicy : Prop :=
  ∀ s : State, s.status = .running → s.pc.toNat < s.params.ilen * s.prog.length → s.params.pcMisalign = .fault →
    s.pc.toNat % s.params.ilen ≠ 0 → step s = .next (faultedAt .misalignedPC s)

/-- R132: past the last instruction, at `4*N` and above with 4 the instruction length `ILEN`, the step halts with
`EndOfProgram` and changes nothing else. -/
def Obligations.PastTheEndHalts : Prop :=
  ∀ s : State, s.status = .running → s.params.ilen * s.prog.length ≤ s.pc.toNat →
    step s = .next { s with status := .halted .endOfProgram }

/-- R134: no step is enabled from a final status. -/
def Obligations.FinalStatusHasNoStep : Prop :=
  ∀ s t : State, s.status ≠ .running → step s ≠ .next t

/-- Every step keeps the invariant of Safety.lean: well-formed parameters and `NREGS` registers, canonical memory inside
the data space, unused flag bits 0, the channel position and `N` in bounds, and a final status that tells the truth.
That memory is a canonical list (the clause `memCanonical`) is the model's choice, log entry 9, and no rule of the
spec; which parameters are well-formed is its choice too, log entry 2. -/
def Obligations.StepKeepsInv : Prop := ∀ s t : State, s.Inv → step s = .next t → t.Inv

/-- The reset state, under the default and under any well-formed parameters, meets the invariant. The model's choices in
it: the canonical form of memory (log entry 9), what well-formed parameters are (log entry 2), and that no instruction
is loaded (log entry 5) and no input supplied yet (log entry 6). -/
def Obligations.ResetMeetsInv : Prop :=
  State.reset.Inv ∧ ∀ p : LaunchParams, p.wf → (State.resetWith p).Inv

/-- Every state that a run from a booted image passes through meets the invariant. The model's choices in it: the
canonical form of memory (log entry 9), what well-formed parameters are (log entry 2), and the refusal of an image past
the bound on `N` (log entry 8). `Reaches` is steps alone: the host answers no read between them (log entry 7), so such a
run sees the input stream that `boot` was given. -/
def Obligations.BootedRunsMeetInv : Prop :=
  ∀ (p : LaunchParams) (image : List Byte) (c : InChan) (s t : State),
    boot p image c = .next s → Reaches s t → t.Inv

/-- No step changes the instruction array, the input stream or the parameters: no store can change an instruction. -/
def Obligations.StepKeepsLaunchState : Prop := ∀ s t : State, step s = .next t → SameLaunch s t

/-- R38: no instruction but `cmpl` writes the flags register, and `cmpl` writes all 32 bits: nothing of the old flags
word is left. (Where the alternative policy of R33 lets a used field name register 16, that field is an operand and no
side effect; `FlagsNotNamed` sets it apart.) -/
def Obligations.OnlyCmplWritesFlags : Prop :=
  (∀ (i : Instr) (s t : State), s.Shaped → FlagsNotNamed s i → (∀ ra rb, i ≠ .cmpl ra rb) → exec i s = .next t →
      t.flags = s.flags) ∧
    ∀ (s : State) (ra rb : RegField) (i j : RegIdx) (old : Word), s.Shaped → Names s ra i → Names s rb j →
      i ≠ s.params.flagsIdx → j ≠ s.params.flagsIdx →
      ∃ t u, exec (.cmpl ra rb) s = .next t ∧ exec (.cmpl ra rb) (s.setFlags old) = .next u ∧ u.flags = t.flags

/-- R39: an instruction that is no conditional jump does the same whatever the flags register holds: the two outcomes
differ at most in that register. (`FlagsNotNamed` as for R38.) -/
def Obligations.OnlyConditionalJumpsReadFlags : Prop :=
  ∀ (i : Instr) (s : State) (v : Word), s.Shaped → FlagsNotNamed s i → isConditionalJump i = false →
    (∀ t, exec i s = .next t →
      ∃ u, exec i (s.setFlags v) = .next u ∧ u.pc = t.pc ∧ SameRegsBut [s.params.flagsIdx] t u ∧ SameBytes t u ∧
        SameRest t u) ∧
    ∀ f, exec i s = .fault f → exec i (s.setFlags v) = .fault f

/-- R271: a fault is precise and final. It records the kind and the faulting instruction's address, the step writes
nothing else, and no step follows. (What registers and memory hold after a fault has no meaning beyond this rule, D17.) -/
def Obligations.FaultsArePreciseAndFinal : Prop :=
  ∀ (s t : State) (kind : FaultKind) (p : Word), step s = .next t → t.status = .faulted kind p →
    p = s.pc ∧ t = faultedAt kind s ∧ ∀ u, step t ≠ .next u

/-- The causes of each fault kind (section 1 of spec/60_exceptions.md): a fault is raised only where its cause holds,
and by the instructions that the table lists. -/
def Obligations.FaultCauses : Prop :=
  ∀ (s t : State) (kind : FaultKind) (p : Word), s.Shaped → step s = .next t → t.status = .faulted kind p →
    match kind with
    | .illegalOpcode op =>
      op ∉ s.params.opcodeValues ∧ ∃ w, FetchesWord s w ∧ op = bitField s.params.opcodeHi s.params.opcodeLo w
    | .illegalRegister f w => IllegalField s f ∧ ∃ i, FetchesInstr s i ∧ usedField i w = some f
    | .memoryOutOfBounds a => ¬ InSpace s a ∧ ∃ i, FetchesInstr s i ∧ accessesMemory i = true
    | .inputExhausted =>
      s.inChan.values.length ≤ s.inPos ∧ s.inChan.tail ≠ .nothingYet ∧ ∃ ra, FetchesInstr s (.readr ra)
    | .misalignedPC => s.params.pcMisalign = .fault ∧ s.pc.toNat % s.params.ilen ≠ 0

/-- The two halts: past the end, or a `ret` on the empty stack; a halt changes nothing but the status, so the pc keeps
its value. `ret` on an empty stack is the only instruction that ends a run on purpose. -/
def Obligations.HaltCauses : Prop :=
  ∀ (s t : State) (r : HaltReason), step s = .next t → t.status = .halted r →
    t = { s with status := .halted r } ∧
      ((r = .endOfProgram ∧ s.params.ilen * s.prog.length ≤ s.pc.toNat) ∨
        (r = .returnFromEmptyStack ∧ FetchesInstr s .ret ∧ s.sp = s.params.word s.params.spReset))

/-- The only wait state is the `readr` block: every other step of a running core has a next state, and no step is
refused. How the model shows "no step" (`waitingForInput`) is its own choice (log entry 4). -/
def Obligations.OnlyReadrWaits : Prop :=
  ∀ s : State, s.status = .running →
    (∃ t, step s = .next t) ∨
      (step s = .fault .waitingForInput ∧ s.inChan.values.length ≤ s.inPos ∧ s.inChan.tail = .nothingYet ∧
        ∃ ra i, FetchesInstr s (.readr ra) ∧ Names s ra i)

/-- Only `printr` appends to `out_chan`, one value at a time, and only `readr` moves the read position, one item at a
time. -/
def Obligations.OnlyIoMovesChannels : Prop :=
  ∀ (i : Instr) (s t : State), exec i s = .next t →
    ((∀ ra, i ≠ .printr ra) → t.out = s.out) ∧ (t.out = s.out ∨ ∃ v, t.out = s.out ++ [v]) ∧
      ((∀ ra, i ≠ .readr ra) → t.inPos = s.inPos) ∧ (t.inPos = s.inPos ∨ t.inPos = s.inPos + 1)

/-- R300: what reset leaves, in the reset state and in every booted one, by the names of R10; and the numbers, under the
default parameters. -/
def Obligations.ResetValues : Prop :=
  State.reset = State.resetWith {} ∧
    ∀ (p : LaunchParams) (s : State), p.wf → (s = State.resetWith p ∨ ∃ image c, boot p image c = .next s) →
      s.params = p ∧ s.regs.length = p.nregs ∧ (∀ i : RegIdx, i ≠ p.spIdx → s.reg i = 0) ∧ s.sp = p.word p.spReset ∧
        s.flags = 0 ∧ (∀ a, s.mem.read a = 0) ∧ s.pc = 0 ∧ s.status = .running ∧ s.out = [] ∧ s.inPos = 0 ∧
        (p = {} → s.regs.length = 17 ∧ s.reg 6 = 1024#32 ∧ s.reg 16 = 0)

/-- R8 and R61: an image whose length is not a multiple of 4, the instruction length `ILEN`, is refused, and the core
never starts; any other image, up to the bound on N, boots, and with `ILEN` = 4 word k is formed from its bytes 4k to
4k+3 in the chosen byte order (byte `j` of a word is its bits 8j+7:8j). No step switches the order. -/
def Obligations.BootFormsWords : Prop :=
  (∀ (p : LaunchParams) (image : List Byte) (c : InChan), p.wf →
    (image.length % p.ilen ≠ 0 → boot p image c = .refused .imageLengthNotMultiple) ∧
      (image.length % p.ilen = 0 → image.length / p.ilen ≤ p.maxInstrs →
        ∃ s, boot p image c = .next s ∧ s.prog.length = image.length / p.ilen ∧ s.inChan = c ∧ s.params = p ∧
          (p.ilen = 4 → ∀ k, k < image.length / 4 →
            ∃ w, s.prog[k]? = some w ∧
              (p.instrByteOrder = .little → ∀ j, j < 4 → w.extractLsb' (8 * j) 8 = image.getD (4 * k + j) 0) ∧
              (p.instrByteOrder = .big → ∀ j, j < 4 → w.extractLsb' (8 * j) 8 = image.getD (4 * k + (3 - j)) 0)))) ∧
    ∀ s t : State, step s = .next t → t.params.instrByteOrder = s.params.instrByteOrder

/-- A waiting `readr` goes on when the host answers: with a value it completes, with end-of-input or input that is not
an integer it raises `InputExhausted`. The host's answer changes nothing but the input stream (log entry 7). -/
def Obligations.HostAnswerEndsWait : Prop :=
  ∀ (s : State) (ra : RegField) (i : RegIdx) (v : Word) (e : InTail), s.Shaped → Names s ra i →
    s.inPos = s.inChan.values.length → s.inChan.tail = .nothingYet → e ≠ .nothingYet →
    (∀ t, exec (.readr ra) s ≠ .next t) ∧
      (∃ t, exec (.readr ra) (hostSupply v s) = .next t ∧ t.reg i = s.params.fit v ∧ t.inPos = s.inPos + 1 ∧
        t.pc = nextPc s) ∧
      exec (.readr ra) (hostSignal e s) = .next (faultedAt .inputExhausted (hostSignal e s)) ∧
      hostSupply v s = { s with inChan := (hostSupply v s).inChan } ∧
      hostSignal e s = { s with inChan := (hostSignal e s).inChan }

/-- A word placed for the next fetch is fetched and run, and `decodeTableWord` is the decoder under the default parameters
(the model's own interface, log entry 5). -/
def Obligations.PlacedWordRunsNext : Prop :=
  (∀ w : Nat, w < 2 ^ 32 → decodeTableWord 32 w = decodeWord {} (BitVec.ofNat 32 w)) ∧
    ∀ (s : State) (w : Nat) (i : Instr), s.Shaped → w < 2 ^ 32 → decodeWord s.params (BitVec.ofNat 32 w) = some i →
      (s.params.pcMisalign = .truncate ∨ s.pc.toNat % s.params.ilen = 0) →
      step (s.withFetchWord 32 w) = exec i (s.withFetchWord 32 w)

/-! ### Arithmetic (spec/41_arithmetic.md) -/

/-- R160. -/
def Obligations.SublSubtractsImmediate : Prop :=
  OpcodeDecodesTo 0 (fun ra _ imm => .subl ra imm) ∧
    ∀ (s : State) (ra : RegField) (imm : Word), s.Shaped →
      (∀ i, Names s ra i → ∃ t, exec (.subl ra imm) s = .next t ∧ WritesReg s i (s.reg i - imm) t) ∧
        (IllegalField s ra → exec (.subl ra imm) s = .next (faultedAt (.illegalRegister ra .ra) s))

/-- R161. -/
def Obligations.AddlRegRegAddsIntoSecond : Prop :=
  OpcodeDecodesTo 1 (fun ra rb _ => .addlRegReg ra rb) ∧
    ∀ (s : State) (ra rb : RegField), s.Shaped →
      (∀ i j, Names s ra i → Names s rb j →
        ∃ t, exec (.addlRegReg ra rb) s = .next t ∧ WritesReg s j (s.reg i + s.reg j) t) ∧
        (IllegalField s ra → exec (.addlRegReg ra rb) s = .next (faultedAt (.illegalRegister ra .ra) s)) ∧
        (∀ i, Names s ra i → IllegalField s rb →
          exec (.addlRegReg ra rb) s = .next (faultedAt (.illegalRegister rb .rb) s))

/-- R162. -/
def Obligations.AddlImmRegAddsImmediate : Prop :=
  OpcodeDecodesTo 2 (fun ra _ imm => .addlImmReg ra imm) ∧
    ∀ (s : State) (ra : RegField) (imm : Word), s.Shaped →
      (∀ i, Names s ra i → ∃ t, exec (.addlImmReg ra imm) s = .next t ∧ WritesReg s i (s.reg i + imm) t) ∧
        (IllegalField s ra → exec (.addlImmReg ra imm) s = .next (faultedAt (.illegalRegister ra .ra) s))

/-- R163: the low 32 (`XLEN`) bits of the product, stated on the signed integers. -/
def Obligations.ImullKeepsLowProduct : Prop :=
  OpcodeDecodesTo 3 (fun ra rb _ => .imull ra rb) ∧
    ∀ (s : State) (ra rb : RegField), s.Shaped →
      (∀ i j, Names s ra i → Names s rb j →
        ∃ t v, exec (.imull ra rb) s = .next t ∧ WritesReg s j v t ∧
          (v.toNat : Int) = (s.params.signed (s.reg i) * s.params.signed (s.reg j)) % 2 ^ s.params.xlen) ∧
        (IllegalField s ra → exec (.imull ra rb) s = .next (faultedAt (.illegalRegister ra .ra) s)) ∧
        (∀ i, Names s ra i → IllegalField s rb →
          exec (.imull ra rb) s = .next (faultedAt (.illegalRegister rb .rb) s))

/-- R164: a logical shift right by `SHR_AMOUNT`, one by default. -/
def Obligations.ShrlHalvesUnsigned : Prop :=
  OpcodeDecodesTo 4 (fun ra _ _ => .shrl ra) ∧
    ∀ (s : State) (ra : RegField), s.Shaped →
      (∀ i, Names s ra i →
        ∃ t v, exec (.shrl ra) s = .next t ∧ WritesReg s i v t ∧ v.toNat = (s.reg i).toNat / 2 ^ s.params.shrAmount) ∧
        (IllegalField s ra → exec (.shrl ra) s = .next (faultedAt (.illegalRegister ra .ra) s))

/-! ### Data movement (spec/42_data_movement.md) -/

/-- R180. -/
def Obligations.MovlRegRegCopies : Prop :=
  OpcodeDecodesTo 5 (fun ra rb _ => .movlRegReg ra rb) ∧
    ∀ (s : State) (ra rb : RegField), s.Shaped →
      (∀ i j, Names s ra i → Names s rb j → ∃ t, exec (.movlRegReg ra rb) s = .next t ∧ WritesReg s j (s.reg i) t) ∧
        (IllegalField s ra → exec (.movlRegReg ra rb) s = .next (faultedAt (.illegalRegister ra .ra) s)) ∧
        (∀ i, Names s ra i → IllegalField s rb →
          exec (.movlRegReg ra rb) s = .next (faultedAt (.illegalRegister rb .rb) s))

/-- R181: any byte offset from 0 to 1020 loads, aligned or not; outside, the load faults with the exact address. -/
def Obligations.MovlDerefRegLoads : Prop :=
  OpcodeDecodesTo 6 (fun ra rb imm => .movlDerefReg ra rb imm) ∧
    ∀ (s : State) (ra rb : RegField) (imm : Word), s.Shaped →
      (∀ i j a, Names s ra i → Names s rb j → a = s.params.signed (s.reg i) + imm.toInt →
        (InSpace s a → ∃ t, exec (.movlDerefReg ra rb imm) s = .next t ∧
          WritesReg s j (s.mem.read (a.toNat + 3) ++ s.mem.read (a.toNat + 2) ++ s.mem.read (a.toNat + 1) ++
            s.mem.read a.toNat) t) ∧
        (¬ InSpace s a → exec (.movlDerefReg ra rb imm) s = .next (faultedAt (.memoryOutOfBounds a) s))) ∧
        (IllegalField s ra → exec (.movlDerefReg ra rb imm) s = .next (faultedAt (.illegalRegister ra .ra) s)) ∧
        (∀ i, Names s ra i → IllegalField s rb →
          exec (.movlDerefReg ra rb imm) s = .next (faultedAt (.illegalRegister rb .rb) s))

/-- R182: the base is the second field; a fault writes no byte. -/
def Obligations.MovlRegDerefStores : Prop :=
  OpcodeDecodesTo 7 (fun ra rb imm => .movlRegDeref ra rb imm) ∧
    ∀ (s : State) (ra rb : RegField) (imm : Word),
      (∀ i j a, Names s ra i → Names s rb j → a = s.params.signed (s.reg j) + imm.toInt →
        (InSpace s a → ∃ t, exec (.movlRegDeref ra rb imm) s = .next t ∧ HoldsWord t a.toNat (s.reg i) ∧
          SameBytesOutside a s t ∧ SameRegsBut [] s t ∧ t.pc = nextPc s ∧ SameRest s t) ∧
        (¬ InSpace s a → exec (.movlRegDeref ra rb imm) s = .next (faultedAt (.memoryOutOfBounds a) s))) ∧
        (IllegalField s ra → exec (.movlRegDeref ra rb imm) s = .next (faultedAt (.illegalRegister ra .ra) s)) ∧
        (∀ i, Names s ra i → IllegalField s rb →
          exec (.movlRegDeref ra rb imm) s = .next (faultedAt (.illegalRegister rb .rb) s))

/-- R183. -/
def Obligations.MovlImmRegLoadsImmediate : Prop :=
  OpcodeDecodesTo 8 (fun ra _ imm => .movlImmReg ra imm) ∧
    ∀ (s : State) (ra : RegField) (imm : Word), s.Shaped →
      (∀ i, Names s ra i → ∃ t, exec (.movlImmReg ra imm) s = .next t ∧ WritesReg s i imm t) ∧
        (IllegalField s ra → exec (.movlImmReg ra imm) s = .next (faultedAt (.illegalRegister ra .ra) s))

/-! ### Compare and branches (spec/43_compare_branch.md) -/

/-- R200 and R201: the four flags of `x[rb] - x[ra]`, every other bit 0, nothing else but the pc changed. OF is signed
overflow exactly, and SF xor OF is signed less-than. The flags stand at `CF_BIT`, `ZF_BIT`, `SF_BIT` and `OF_BIT`: bits
0, 6, 7 and 11 by default. -/
def Obligations.CmplSetsFlags : Prop :=
  OpcodeDecodesTo 9 (fun ra rb _ => .cmpl ra rb) ∧
    ∀ (s : State) (ra rb : RegField), s.Shaped →
      (∀ i j (a b r : Word) (sa sb sr : Int), Names s ra i → Names s rb j → a = s.reg i → b = s.reg j →
        r = s.params.fit (b - a) → sa = s.params.signed a → sb = s.params.signed b → sr = s.params.signed r →
        ∃ t, exec (.cmpl ra rb) s = .next t ∧ SameRegsBut [s.params.flagsIdx] s t ∧ t.pc = nextPc s ∧ SameBytes s t ∧
          SameRest s t ∧
          (∀ k, t.flags.getLsbD k = true →
            k = s.params.cfBit ∨ k = s.params.zfBit ∨ k = s.params.sfBit ∨ k = s.params.ofBit) ∧
          (t.flags.getLsbD s.params.cfBit = true ↔ b.toNat < a.toNat) ∧
          (t.flags.getLsbD s.params.zfBit = true ↔ r = 0) ∧
          (t.flags.getLsbD s.params.sfBit = true ↔ sr < 0) ∧
          (t.flags.getLsbD s.params.ofBit = true ↔ (sb < 0 ↔ ¬ sa < 0) ∧ (sr < 0 ↔ ¬ sb < 0)) ∧
          (t.flags.getLsbD s.params.ofBit = true ↔
            sb - sa < -2 ^ (s.params.xlen - 1) ∨ 2 ^ (s.params.xlen - 1) ≤ sb - sa) ∧
          ((t.flags.getLsbD s.params.sfBit ^^ t.flags.getLsbD s.params.ofBit) = true ↔ sb < sa)) ∧
        (IllegalField s ra → exec (.cmpl ra rb) s = .next (faultedAt (.illegalRegister ra .ra) s)) ∧
        (∀ i, Names s ra i → IllegalField s rb →
          exec (.cmpl ra rb) s = .next (faultedAt (.illegalRegister rb .rb) s))

/-- R203 to R207: the five conditional jumps, on every flags word. The flags stand at `CF_BIT`, `ZF_BIT`, `SF_BIT` and
`OF_BIT`: bits 0, 6, 7 and 11 by default. -/
def Obligations.ConditionalJumpsBranch : Prop :=
  OpcodeDecodesTo 10 (fun _ _ imm => .je imm) ∧ OpcodeDecodesTo 11 (fun _ _ imm => .jl imm) ∧
    OpcodeDecodesTo 12 (fun _ _ imm => .jle imm) ∧ OpcodeDecodesTo 13 (fun _ _ imm => .jge imm) ∧
    OpcodeDecodesTo 14 (fun _ _ imm => .jbe imm) ∧
    ∀ (s : State) (imm : Word) (CF ZF SF OF : Bool),
      CF = s.flags.getLsbD s.params.cfBit → ZF = s.flags.getLsbD s.params.zfBit →
      SF = s.flags.getLsbD s.params.sfBit → OF = s.flags.getLsbD s.params.ofBit →
      (∃ t, exec (.je imm) s = .next t ∧ GoesTo s (if ZF then s.pc + imm else nextPc s) t) ∧
        (∃ t, exec (.jl imm) s = .next t ∧ GoesTo s (if SF ≠ OF then s.pc + imm else nextPc s) t) ∧
        (∃ t, exec (.jle imm) s = .next t ∧ GoesTo s (if SF ≠ OF ∨ ZF then s.pc + imm else nextPc s) t) ∧
        (∃ t, exec (.jge imm) s = .next t ∧ GoesTo s (if SF = OF then s.pc + imm else nextPc s) t) ∧
        (∃ t, exec (.jbe imm) s = .next t ∧ GoesTo s (if CF ∨ ZF then s.pc + imm else nextPc s) t)

/-- R208. -/
def Obligations.JmpAlwaysBranches : Prop :=
  OpcodeDecodesTo 15 (fun _ _ imm => .jmp imm) ∧
    ∀ (s : State) (imm : Word), ∃ t, exec (.jmp imm) s = .next t ∧ GoesTo s (s.pc + imm) t

/-- After `cmpl rA, rB` each conditional jump is taken exactly under the comparison it is named for (section 5; the spec
marks R209 as its own derivation). -/
def Obligations.CompareThenBranch : Prop :=
  ∀ (s t : State) (ra rb : RegField) (i j : RegIdx) (imm a b goal : Word) (sa sb : Int), s.Shaped → Names s ra i →
    Names s rb j → a = s.reg i → b = s.reg j → sa = s.params.signed a → sb = s.params.signed b →
    exec (.cmpl ra rb) s = .next t → goal = s.params.pcFit (t.pc + imm) →
    (∃ u, exec (.je imm) t = .next u ∧ u.pc = if b = a then goal else nextPc t) ∧
      (∃ u, exec (.jl imm) t = .next u ∧ u.pc = if sb < sa then goal else nextPc t) ∧
      (∃ u, exec (.jle imm) t = .next u ∧ u.pc = if sb ≤ sa then goal else nextPc t) ∧
      (∃ u, exec (.jge imm) t = .next u ∧ u.pc = if sa ≤ sb then goal else nextPc t) ∧
      (∃ u, exec (.jbe imm) t = .next u ∧ u.pc = if b.toNat ≤ a.toNat then goal else nextPc t)

/-! ### Call, return and stack (spec/44_call_stack.md) -/

/-- R230. -/
def Obligations.CallPushesReturnAddress : Prop :=
  OpcodeDecodesTo 16 (fun _ _ imm => .call imm) ∧
    ∀ (s : State) (imm : Word) (a : Int), s.Shaped → a = s.params.signed s.sp - 4 →
      (InSpace s a → ∃ t, exec (.call imm) s = .next t ∧ HoldsWord t a.toNat (nextPc s) ∧ SameBytesOutside a s t ∧
        (t.sp.toNat : Int) = a ∧ SameRegsBut [s.params.spIdx] s t ∧ t.pc = s.params.pcFit (s.pc + imm) ∧ SameRest s t) ∧
      (¬ InSpace s a → exec (.call imm) s = .next (faultedAt (.memoryOutOfBounds a) s))

/-- R231: the empty-stack halt, at r6 = `SP_RESET` (1024 by default), tested before any memory read; else the pop into
the pc. -/
def Obligations.RetPopsOrHalts : Prop :=
  OpcodeDecodesTo 17 (fun _ _ _ => .ret) ∧
    ∀ (s : State) (a : Int), s.Shaped → a = s.params.signed s.sp →
      (s.sp = s.params.word s.params.spReset →
        exec .ret s = .next { s with status := .halted .returnFromEmptyStack }) ∧
        (s.sp ≠ s.params.word s.params.spReset → InSpace s a → ∃ t v, exec .ret s = .next t ∧
          HoldsWord s a.toNat v ∧ t.pc = s.params.pcFit v ∧ t.sp = s.params.fit (s.sp + 4#32) ∧
          SameRegsBut [s.params.spIdx] s t ∧ SameBytes s t ∧ SameRest s t) ∧
        (s.sp ≠ s.params.word s.params.spReset → ¬ InSpace s a →
          exec .ret s = .next (faultedAt (.memoryOutOfBounds a) s))

/-- R232: the value is read before r6 changes, so `pushl r6` stores the old stack pointer. -/
def Obligations.PushlStoresBelowTop : Prop :=
  OpcodeDecodesTo 18 (fun ra _ _ => .pushl ra) ∧
    ∀ (s : State) (ra : RegField), s.Shaped →
      (∀ i a, Names s ra i → a = s.params.signed s.sp - 4 →
        (InSpace s a → ∃ t, exec (.pushl ra) s = .next t ∧ HoldsWord t a.toNat (s.reg i) ∧ SameBytesOutside a s t ∧
          (t.sp.toNat : Int) = a ∧ SameRegsBut [s.params.spIdx] s t ∧ t.pc = nextPc s ∧ SameRest s t) ∧
        (¬ InSpace s a → exec (.pushl ra) s = .next (faultedAt (.memoryOutOfBounds a) s))) ∧
        (IllegalField s ra → exec (.pushl ra) s = .next (faultedAt (.illegalRegister ra .ra) s))

/-- R233: the loaded value goes into ra first and r6 is read after that, so `popl r6` leaves the value plus 4. -/
def Obligations.PoplLoadsThenMovesTop : Prop :=
  OpcodeDecodesTo 19 (fun ra _ _ => .popl ra) ∧
    ∀ (s : State) (ra : RegField) (a : Int), s.Shaped → a = s.params.signed s.sp →
      (∀ i, Names s ra i →
        (InSpace s a → ∃ t v, exec (.popl ra) s = .next t ∧ HoldsWord s a.toNat v ∧
          (i ≠ s.params.spIdx → t.reg i = s.params.fit v ∧ t.sp = s.params.fit (s.sp + 4#32)) ∧
          (i = s.params.spIdx → t.sp = s.params.fit (v + 4#32)) ∧
          SameRegsBut [i, s.params.spIdx] s t ∧ t.pc = nextPc s ∧ SameBytes s t ∧ SameRest s t) ∧
        (¬ InSpace s a → exec (.popl ra) s = .next (faultedAt (.memoryOutOfBounds a) s))) ∧
        (IllegalField s ra → exec (.popl ra) s = .next (faultedAt (.illegalRegister ra .ra) s))

/-- A push then a pop of one register restores it and the stack pointer, but for r6, which ends 4 higher (R234 a, which
the spec marks as derived). -/
def Obligations.PushThenPopRestores : Prop :=
  ∀ (s : State) (ra : RegField) (i : RegIdx), s.Shaped → Names s ra i → InSpace s (s.params.signed s.sp - 4) →
    ∃ t u, exec (.pushl ra) s = .next t ∧ exec (.popl ra) t = .next u ∧
      (i ≠ s.params.spIdx → ∀ j, u.reg j = s.reg j) ∧ (i = s.params.spIdx → u.sp = s.params.fit (s.sp + 4#32)) ∧
      u.pc = nextPc t ∧ t.pc = nextPc s

/-- A call, then any code that brings r6 back and leaves the saved word alone, then `ret`: the pc is the instruction
after the call and the stack pointer what it was before it (R234 b, which the spec marks as derived). As by default, the
empty top of the stack does not lie inside data memory; where it did, the `ret` could take it for the empty stack. -/
def Obligations.CallThenReturnResumes : Prop :=
  ∀ (s t u : State) (imm : Word), s.Shaped → s.params.memSize ≤ s.params.spReset →
    s.params.spReset < 2 ^ (s.params.xlen - 1) → InSpace s (s.params.signed s.sp - 4) → exec (.call imm) s = .next t →
    u.params = t.params → u.regs.length = t.regs.length → u.sp = t.sp →
    (∀ k, k < 4 → u.mem.read (t.sp.toNat + k) = t.mem.read (t.sp.toNat + k)) →
    ∃ v, exec .ret u = .next v ∧ v.pc = nextPc s ∧ v.sp = s.sp

/-- A load from where a store has just gone returns the stored value, whatever the alignment (section 5 of
spec/20_memory.md). -/
def Obligations.LoadSeesLatestStore : Prop :=
  ∀ (s : State) (ra rb rd : RegField) (i j k : RegIdx) (imm : Word), s.Shaped → Names s ra i →
    Names s rb j → Names s rd k → InSpace s (s.params.signed (s.reg j) + imm.toInt) →
    ∃ t u, exec (.movlRegDeref ra rb imm) s = .next t ∧ exec (.movlDerefReg rb rd imm) t = .next u ∧
      u.reg k = s.reg i ∧ SameBytes t u

/-! ### I/O (spec/45_io.md) -/

/-- R250: the core emits the 32-bit value, one item per execution. -/
def Obligations.PrintrEmitsValue : Prop :=
  OpcodeDecodesTo 20 (fun ra _ _ => .printr ra) ∧
    ∀ (s : State) (ra : RegField),
      (∀ i, Names s ra i → ∃ t, exec (.printr ra) s = .next t ∧ t.out = s.out ++ [s.reg i] ∧ t.inPos = s.inPos ∧
        SameRegsBut [] s t ∧ t.pc = nextPc s ∧ SameBytes s t ∧ t.status = s.status ∧ SameLaunch s t) ∧
        (IllegalField s ra → exec (.printr ra) s = .next (faultedAt (.illegalRegister ra .ra) s))

/-- R252: the field is checked before the core waits; with an item the read completes, at the end of the input it faults,
and with nothing supplied yet there is no step. -/
def Obligations.ReadrTakesInput : Prop :=
  OpcodeDecodesTo 21 (fun ra _ _ => .readr ra) ∧
    ∀ (s : State) (ra : RegField), s.Shaped →
      (∀ i, Names s ra i →
        (∀ v, s.inChan.values[s.inPos]? = some v →
          ∃ t, exec (.readr ra) s = .next t ∧ t.reg i = s.params.fit v ∧ SameRegsBut [i] s t ∧ t.inPos = s.inPos + 1 ∧
            t.out = s.out ∧ t.pc = nextPc s ∧ SameBytes s t ∧ t.status = s.status ∧ SameLaunch s t) ∧
        (s.inChan.values.length ≤ s.inPos → s.inChan.tail ≠ .nothingYet →
          exec (.readr ra) s = .next (faultedAt .inputExhausted s)) ∧
        (s.inChan.values.length ≤ s.inPos → s.inChan.tail = .nothingYet → ∀ t, exec (.readr ra) s ≠ .next t)) ∧
        (IllegalField s ra → exec (.readr ra) s = .next (faultedAt (.illegalRegister ra .ra) s))

/-! ### Frames: what stays when `exec` answers a next state, a fault's among them -/

/-- The register-only instructions write at most their destination register and the pc (or, on an illegal field, the
status): no flag under the default policy, no byte of memory, no channel. -/
def Obligations.RegisterInstrFrame : Prop :=
  ∀ (s t : State) (ra rb : RegField) (imm : Word) (i : Instr) (dest : RegField),
    (i ∈ [.subl ra imm, .addlImmReg ra imm, .shrl ra, .movlImmReg ra imm] ∧ dest = ra) ∨
      (i ∈ [.addlRegReg ra rb, .imull ra rb, .movlRegReg ra rb] ∧ dest = rb) →
    exec i s = .next t →
    (∀ j : RegIdx, j ≠ dest → t.reg j = s.reg j) ∧
      (s.params.flagsOperand = .fault → t.flags = s.flags) ∧ SameBytes s t ∧ SameChannels s t ∧ SameLaunch s t ∧
      (t.status = s.status ∨ ∃ f w, t = faultedAt (.illegalRegister f w) s)

/-- A load, a pop and a return write no byte of memory, no channel, and no register but the destination and, for the pop
and the return, r6; no flag under the default policy. -/
def Obligations.LoadPopReturnFrame : Prop :=
  ∀ (s t : State) (ra rb : RegField) (imm : Word) (i : Instr) (d : List Nat),
    (i = .movlDerefReg ra rb imm ∧ d = [rb]) ∨ (i = .popl ra ∧ d = [ra, s.params.spIdx]) ∨
      (i = .ret ∧ d = [s.params.spIdx]) →
    s.Shaped → exec i s = .next t →
    (∀ j : RegIdx, j ∉ d → t.reg j = s.reg j) ∧ (s.params.flagsOperand = .fault → t.flags = s.flags) ∧
      SameBytes s t ∧ SameChannels s t ∧ SameLaunch s t

/-- A store, a push and a call write no byte outside the four at the address that the meaning computes, no register but,
for the push and the call, r6, no flag and no channel. Where the store's base field is illegal, no byte at all. -/
def Obligations.StorePushCallFrame : Prop :=
  (∀ (s t : State) (ra rb : RegField) (imm : Word), exec (.movlRegDeref ra rb imm) s = .next t →
      SameRegsBut [] s t ∧ SameChannels s t ∧ SameLaunch s t ∧
        (∀ (j : RegIdx) (a : Int), Names s rb j → effAddr s.params (s.reg j) imm = a → SameBytesOutside a s t) ∧
        (IllegalField s rb → SameBytes s t)) ∧
    ∀ (s t : State) (ra : RegField) (imm : Word) (i : Instr), i = .pushl ra ∨ i = .call imm → exec i s = .next t →
      SameRegsBut [s.params.spIdx] s t ∧ SameChannels s t ∧ SameLaunch s t ∧
        ∀ a : Int, pushAddr s.params s.sp = a → SameBytesOutside a s t

/-- The compare writes no register but the flags register, the jumps none at all, `printr` none and `readr` its
destination; none of them writes a byte of memory, and none but the two I/O instructions moves a channel. -/
def Obligations.CompareJumpIoFrame : Prop :=
  ∀ (s t : State) (ra rb : RegField) (imm : Word) (i : Instr) (d : List Nat),
    (i = .cmpl ra rb ∧ d = [s.params.flagsIdx]) ∨
      (i ∈ [.je imm, .jl imm, .jle imm, .jge imm, .jbe imm, .jmp imm, .printr ra] ∧ d = []) ∨
      (i = .readr ra ∧ d = [ra]) →
    exec i s = .next t →
    (∀ j : RegIdx, j ∉ d → t.reg j = s.reg j) ∧
      (s.params.flagsOperand = .fault → i ≠ .cmpl ra rb → t.flags = s.flags) ∧ SameBytes s t ∧ SameLaunch s t ∧
      (i ≠ .printr ra → t.out = s.out) ∧ (i ≠ .readr ra → t.inPos = s.inPos)

/-! ### Parameters (spec/00_scope.md R10) -/

/-- R10: the named parameters and their values, the bound on `N`, and that a run takes its parameters from outside: a
booted state has the parameters that `boot` was given, and no step changes them. -/
def Obligations.ParameterDefaults : Prop :=
  ({} : LaunchParams) =
      { xlen := 32, pcWidth := 32, nregs := 17, spIdx := 6, flagsIdx := 16, memSize := 1024, spReset := 1024, cfBit := 0,
        zfBit := 6, sfBit := 7, ofBit := 11, shrAmount := 1, ilen := 4, opcodeHi := 31, opcodeLo := 27, raHi := 26,
        raLo := 22, rbHi := 21, rbLo := 17, immHi := 15, immLo := 0, opcodeValues := List.range 22,
        flagsOperand := .fault, pcMisalign := .truncate, readEof := .fault, instrByteOrder := .little } ∧
    ({} : LaunchParams).maxInstrs = 2 ^ 30 ∧
    (∀ (p : LaunchParams) (image : List Byte) (c : InChan) (s : State), boot p image c = .next s →
      s.params = p ∧ s.prog.length ≤ p.maxInstrs) ∧
    ∀ s t : State, step s = .next t → t.params = s.params

/-- What the widths `XLEN` and `PC_WIDTH` do (R10; how a value is cut at a width other than 32 is the model's reading,
log entry 2): a register holds a value mod `2^XLEN`, which `signed` reads in `[-2^(XLEN-1), 2^(XLEN-1))`, and the pc a
value mod `2^PC_WIDTH`. At the spec's widths nothing is cut and `signed` is R11's `s(v)`. -/
def Obligations.WidthsCutValues : Prop :=
  (∀ (p : LaunchParams) (v : Word),
    (p.fit v).toNat = v.toNat % 2 ^ p.xlen ∧ (p.pcFit v).toNat = v.toNat % 2 ^ p.pcWidth ∧
      (p.xlen = 32 → p.fit v = v ∧ p.signed v = v.toInt) ∧ (p.pcWidth = 32 → p.pcFit v = v)) ∧
    (∀ (p : LaunchParams) (v : Word), p.wf →
      -2 ^ (p.xlen - 1) ≤ p.signed v ∧ p.signed v < 2 ^ (p.xlen - 1) ∧
        p.signed v % 2 ^ p.xlen = (v.toNat : Int) % 2 ^ p.xlen) ∧
    ∀ (s : State) (i : RegIdx) (v : Word), s.Shaped → i < s.regs.length →
      (s.setReg i v).reg i = s.params.fit v ∧ (s.setPc v).pc = s.params.pcFit v ∧ s.params.fit (s.reg i) = s.reg i ∧
        s.params.pcFit s.pc = s.pc
end

