-- ==== Sys2Proof/Laws/Words.lean ====
section
/-! SUPPORT. The laws of values of `XLEN` and `PC_WIDTH` bits (spec/00_scope.md R10, R11), and the parts of `LaunchParams.wf`
by name. -/

namespace Sys2Proof

/-! ### Well-formed parameters -/

theorem LaunchParams.wf_xlen {p : LaunchParams} (h : p.wf) : p.xlen ≤ 32 := h.1.1
theorem LaunchParams.wf_pcWidth {p : LaunchParams} (h : p.wf) : p.pcWidth ≤ 32 := h.1.2
theorem LaunchParams.wf_registers {p : LaunchParams} (h : p.wf) : p.registersFit := h.2.1
theorem LaunchParams.wf_flagBits {p : LaunchParams} (h : p.wf) : p.flagBitsFit := h.2.2.1
theorem LaunchParams.wf_fields {p : LaunchParams} (h : p.wf) : p.fieldsFit := h.2.2.2.1
theorem LaunchParams.wf_opcodes {p : LaunchParams} (h : p.wf) : p.opcodesFit := h.2.2.2.2.1
theorem LaunchParams.wf_length {p : LaunchParams} (h : p.wf) : p.lengthFits := h.2.2.2.2.2

/-- The parameters of R10 are well-formed. -/
theorem defaultParams_wf : ({} : LaunchParams).wf := by decide

/-! ### Low bits -/

@[simp] theorem lowBits_toNat (k : Nat) (v : Word) : (lowBits k v).toNat = v.toNat % 2 ^ k := by
  rw [lowBits, BitVec.toNat_ofNat, Nat.mod_eq_of_lt (Nat.lt_of_le_of_lt (Nat.mod_le _ _) v.isLt)]

theorem lowBits_lt (k : Nat) (v : Word) : (lowBits k v).toNat < 2 ^ k := by
  rw [lowBits_toNat]
  exact Nat.mod_lt _ (Nat.two_pow_pos k)

theorem lowBits_of_lt {k : Nat} {v : Word} (h : v.toNat < 2 ^ k) : lowBits k v = v :=
  BitVec.eq_of_toNat_eq (by rw [lowBits_toNat, Nat.mod_eq_of_lt h])

@[simp] theorem lowBits_lowBits (k : Nat) (v : Word) : lowBits k (lowBits k v) = lowBits k v :=
  lowBits_of_lt (lowBits_lt k v)

/-- At 32 bits nothing is cut off. -/
@[simp] theorem lowBits_32 (v : Word) : lowBits 32 v = v := lowBits_of_lt v.isLt

@[simp] theorem lowBits_zero (k : Nat) : lowBits k 0#32 = 0#32 := by
  apply BitVec.eq_of_toNat_eq
  simp

theorem lowBits_getLsbD (k : Nat) (v : Word) (i : Nat) : (lowBits k v).getLsbD i = (decide (i < k) && v.getLsbD i) := by
  rw [BitVec.getLsbD, lowBits_toNat, Nat.testBit_mod_two_pow]
  rfl

/-- Cutting an operand first changes no low bit of a sum. -/
theorem lowBits_add_lowBits {k : Nat} (h : k ≤ 32) (a b : Word) : lowBits k (lowBits k a + b) = lowBits k (a + b) := by
  apply BitVec.eq_of_toNat_eq
  have hd : 2 ^ k ∣ 2 ^ 32 := Nat.pow_dvd_pow 2 h
  rw [lowBits_toNat, lowBits_toNat, BitVec.toNat_add, BitVec.toNat_add, lowBits_toNat, Nat.mod_mod_of_dvd _ hd,
    Nat.mod_mod_of_dvd _ hd, Nat.mod_add_mod]

/-! ### Signed values -/

theorem signedLow_of_lt {k n : Nat} (h : n < 2 ^ k) :
    signedLow k n = if 2 * n < 2 ^ k then (n : Int) else (n : Int) - ((2 ^ k : Nat) : Int) := by
  rw [signedLow, Nat.mod_eq_of_lt h]

@[simp] theorem signedLow_mod (k n : Nat) : signedLow k (n % 2 ^ k) = signedLow k n := by
  simp only [signedLow, Nat.mod_mod]

/-- At 32 bits it is the word's own signed value. -/
theorem signedLow_32 (v : Word) : signedLow 32 v.toNat = v.toInt := by
  rw [signedLow_of_lt v.isLt, BitVec.toInt_eq_toNat_cond]

/-- A signed value and its bits agree mod `2 ^ k`. -/
theorem signedLow_emod (k n : Nat) : signedLow k n % ((2 ^ k : Nat) : Int) = (n : Int) % ((2 ^ k : Nat) : Int) := by
  unfold signedLow
  split <;> simp

theorem w32_toNat_emod {k : Nat} (h : k ≤ 32) (n : Int) :
    (((w32 n).toNat % 2 ^ k : Nat) : Int) = n % ((2 ^ k : Nat) : Int) := by
  have hd : ((2 ^ k : Nat) : Int) ∣ ((2 ^ 32 : Nat) : Int) := Int.natCast_dvd_natCast.mpr (Nat.pow_dvd_pow 2 h)
  rw [Int.natCast_mod, w32, BitVec.toNat_ofInt, Int.toNat_of_nonneg (Int.emod_nonneg _ (by positivity)),
    Int.emod_emod_of_dvd _ hd]

/-! ### Registers and pc -/

theorem LaunchParams.fit_lt (p : LaunchParams) (v : Word) : (p.fit v).toNat < 2 ^ p.xlen := lowBits_lt _ _

theorem LaunchParams.word_lt (p : LaunchParams) (n : Int) : (p.word n).toNat < 2 ^ p.xlen := lowBits_lt _ _

theorem LaunchParams.fit_of_lt {p : LaunchParams} {v : Word} (h : v.toNat < 2 ^ p.xlen) : p.fit v = v := lowBits_of_lt h

@[simp] theorem LaunchParams.fit_fit (p : LaunchParams) (v : Word) : p.fit (p.fit v) = p.fit v := lowBits_lowBits _ _

@[simp] theorem LaunchParams.fit_word (p : LaunchParams) (n : Int) : p.fit (p.word n) = p.word n := lowBits_lowBits _ _

@[simp] theorem LaunchParams.fit_zero (p : LaunchParams) : p.fit 0#32 = 0#32 := lowBits_zero _

theorem LaunchParams.fit_default {p : LaunchParams} (h : p.xlen = 32) (v : Word) : p.fit v = v := by
  rw [LaunchParams.fit, h, lowBits_32]

theorem LaunchParams.fit_add_fit {p : LaunchParams} (h : p.wf) (a b : Word) : p.fit (p.fit a + b) = p.fit (a + b) :=
  lowBits_add_lowBits h.1.1 a b

theorem LaunchParams.pcFit_lt (p : LaunchParams) (v : Word) : (p.pcFit v).toNat < 2 ^ p.pcWidth := lowBits_lt _ _

theorem LaunchParams.pcFit_of_lt {p : LaunchParams} {v : Word} (h : v.toNat < 2 ^ p.pcWidth) : p.pcFit v = v :=
  lowBits_of_lt h

@[simp] theorem LaunchParams.pcFit_pcFit (p : LaunchParams) (v : Word) : p.pcFit (p.pcFit v) = p.pcFit v :=
  lowBits_lowBits _ _

theorem LaunchParams.pcFit_default {p : LaunchParams} (h : p.pcWidth = 32) (v : Word) : p.pcFit v = v := by
  rw [LaunchParams.pcFit, h, lowBits_32]

theorem LaunchParams.signed_default {p : LaunchParams} (h : p.xlen = 32) (v : Word) : p.signed v = v.toInt := by
  rw [LaunchParams.signed, h, signedLow_32]

@[simp] theorem LaunchParams.signed_fit (p : LaunchParams) (v : Word) : p.signed (p.fit v) = p.signed v := by
  rw [LaunchParams.signed, LaunchParams.fit, lowBits_toNat, signedLow_mod]
  rfl

/-- The signed value of a register that holds `XLEN` bits. -/
theorem LaunchParams.signed_of_lt {p : LaunchParams} {v : Word} (h : v.toNat < 2 ^ p.xlen) :
    p.signed v = if 2 * v.toNat < 2 ^ p.xlen then (v.toNat : Int) else (v.toNat : Int) - ((2 ^ p.xlen : Nat) : Int) :=
  signedLow_of_lt h

/-- A register reads a result mod `2 ^ XLEN` (R11, R139). -/
theorem LaunchParams.word_toNat {p : LaunchParams} (h : p.wf) (n : Int) :
    ((p.word n).toNat : Int) = n % ((2 ^ p.xlen : Nat) : Int) := by
  rw [LaunchParams.word, LaunchParams.fit, lowBits_toNat, w32_toNat_emod h.1.1]

/-- Integers that agree mod `2 ^ 32` make the same word. -/
theorem LaunchParams.word_eq_fit (p : LaunchParams) (v : Word) : p.word v.toNat = p.fit v := by
  rw [LaunchParams.word, w32, BitVec.ofInt_natCast, BitVec.ofNat_toNat, BitVec.setWidth_eq]

end Sys2Proof
end

