-- ==== Sys2Proof/Laws/Decode.lean ====
section
/-! SUPPORT. The laws of the decoder and the encoder (spec/30_encoding.md R91 to R99), under any well-formed parameters. -/

namespace Sys2Proof

/-! ### The opcode map (R97, R99) -/

theorem opcodeRow_eq_none {p : LaunchParams} {op : Nat} : opcodeRow p op = none ↔ op ∉ p.opcodeValues := by
  simp [opcodeRow]

/-- Where the values are distinct, an opcode names the row that holds it (R97). -/
theorem opcodeRow_of_getElem {p : LaunchParams} (h : p.opcodeValues.Nodup) {op : Nat} {k : Nat}
    (hk : p.opcodeValues[k]? = some op) : opcodeRow p op = some k := by
  obtain ⟨hl, he⟩ := List.getElem?_eq_some_iff.mp hk
  have hm : op ∈ p.opcodeValues := he ▸ List.getElem_mem hl
  cases hr : opcodeRow p op with
  | none => exact absurd hm (opcodeRow_eq_none.mp hr)
  | some j =>
    have hj := List.of_findIdx?_eq_some (p := (· == op)) (xs := p.opcodeValues) hr
    cases hje : p.opcodeValues[j]? with
    | none => simp [hje] at hj
    | some x =>
      simp only [hje, beq_iff_eq] at hj
      subst hj
      obtain ⟨hjl, hje⟩ := List.getElem?_eq_some_iff.mp hje
      rw [(List.Nodup.getElem_inj_iff h).mp (hje.trans he.symm)]

/-- An opcode's row is one of the 22 (R97). -/
theorem opcodeRow_lt {p : LaunchParams} {op : Nat} {k : Nat} (h : opcodeRow p op = some k) :
    k < p.opcodeValues.length :=
  (List.findIdx?_eq_some_iff_getElem.mp h).1

theorem opcodeRow_opcodeOf {p : LaunchParams} (h : p.opcodesFit) {k : Nat} (hk : k < 22) :
    opcodeRow p (opcodeOf p k) = some k := by
  refine opcodeRow_of_getElem h.2.1 ?_
  have hl : k < p.opcodeValues.length := h.1 ▸ hk
  rw [opcodeOf, List.getD_eq_getElem?_getD, List.getElem?_eq_getElem hl]
  rfl

/-- An opcode fits its field (R97). -/
theorem opcodeOf_lt {p : LaunchParams} (h : p.opcodesFit) {k : Nat} (hk : k < 22) :
    opcodeOf p k < 2 ^ fieldWidth p.opcodeHi p.opcodeLo := by
  have hl : k < p.opcodeValues.length := h.1 ▸ hk
  have hf := h.2.2 _ (List.getElem_mem hl)
  rw [opcodeOf, List.getD_eq_getElem?_getD, List.getElem?_eq_getElem hl]
  simpa [fieldFits] using hf

/-- The default opcode map is the identity on rows (R97). -/
theorem opcodeOf_default {k : Nat} (h : k < 22) : opcodeOf {} k = k := by
  interval_cases k <;> rfl

/-- The default opcode values are 0 to 21 (R97). -/
theorem mem_defaultOpcodes {op : Nat} : op ∈ ({} : LaunchParams).opcodeValues ↔ op < 22 := by
  simp only [List.mem_append, List.mem_cons, List.not_mem_nil, or_false]
  omega

/-- A word decodes to nothing exactly where its opcode field is no operation's (R99). -/
theorem decodeWord_eq_none {p : LaunchParams} (h : p.opcodesFit) {w : Word} :
    decodeWord p w = none ↔ bitField p.opcodeHi p.opcodeLo w ∉ p.opcodeValues := by
  rw [← opcodeRow_eq_none, decodeWord, Decoded.toInstr]
  show _ ↔ opcodeRow p (decode p w).opcode = none
  cases hr : opcodeRow p (decode p w).opcode with
  | none => simp
  | some k =>
    have hk : k < 22 := h.1 ▸ opcodeRow_lt hr
    interval_cases k <;> simp

/-! ### Fields (R11, R91, R96) -/

theorem bitField_testBit (hi lo : Nat) (w : Word) (j : Nat) :
    (bitField hi lo w).testBit j = (decide (j < fieldWidth hi lo) && w.getLsbD (lo + j)) := by
  rw [bitField, Nat.testBit_mod_two_pow, Nat.testBit_div_two_pow, Nat.add_comm]
  rfl

theorem bitField_lt (hi lo : Nat) (w : Word) : bitField hi lo w < 2 ^ fieldWidth hi lo :=
  Nat.mod_lt _ (Nat.two_pow_pos _)

/-- A field as the library's slice of the word. -/
theorem bitField_eq_extract (lo n : Nat) (w : Word) : bitField (lo + n) lo w = (w.extractLsb' lo (n + 1)).toNat := by
  rw [BitVec.extractLsb'_toNat, Nat.shiftRight_eq_div_pow, bitField, fieldWidth]
  congr 2
  omega

/-- Bit `j` of a number placed in a field. -/
theorem placeField_getLsbD {hi lo : Nat} (h : isField hi lo) (n j : Nat) :
    (placeField hi lo n).getLsbD j = (decide (lo ≤ j) && (decide (j ≤ hi) && n.testBit (j - lo))) := by
  obtain ⟨h1, h2⟩ := h
  rw [placeField, BitVec.getLsbD_ofNat, Nat.testBit_mul_two_pow, Nat.testBit_mod_two_pow, fieldWidth]
  by_cases a : lo ≤ j
  · by_cases b : j ≤ hi
    · simp [a, b, show j < 32 by omega, show j - lo < hi + 1 - lo by omega]
    · simp [b, show ¬ j - lo < hi + 1 - lo by omega]
  · simp [a]

/-- A number that fits its field, as a word (R96). -/
theorem placeField_toNat {hi lo : Nat} (h : isField hi lo) (n : Nat) :
    (placeField hi lo n).toNat = n % 2 ^ fieldWidth hi lo * 2 ^ lo := by
  obtain ⟨h1, h2⟩ := h
  rw [placeField, BitVec.toNat_ofNat]
  refine Nat.mod_eq_of_lt ?_
  calc n % 2 ^ fieldWidth hi lo * 2 ^ lo < 2 ^ fieldWidth hi lo * 2 ^ lo :=
        Nat.mul_lt_mul_of_pos_right (Nat.mod_lt _ (Nat.two_pow_pos _)) (Nat.two_pow_pos _)
    _ = 2 ^ (hi + 1) := by rw [← Nat.pow_add, fieldWidth, Nat.sub_add_cancel (by omega)]
    _ ≤ 2 ^ 32 := Nat.pow_le_pow_right (by decide) h2

/-- A bit outside a field is not the field's. -/
theorem outside_field {hi lo j : Nat} (h : j < lo ∨ hi < j) (b : Bool) :
    (decide (lo ≤ j) && (decide (j ≤ hi) && b)) = false := by
  rcases h with h | h
  · simp [Nat.not_le.mpr h]
  · simp [Nat.not_le.mpr h]

/-- An encoded record bit by bit: each field at its place and 0 elsewhere (R92, R96). -/
theorem encodeFields_getLsbD {p : LaunchParams} (h : p.fieldsFit) (d : Decoded) (j : Nat) :
    (encodeFields p d).getLsbD j =
      ((decide (p.opcodeLo ≤ j) && (decide (j ≤ p.opcodeHi) && d.opcode.testBit (j - p.opcodeLo))) ||
        (decide (p.raLo ≤ j) && (decide (j ≤ p.raHi) && d.ra.testBit (j - p.raLo))) ||
        (decide (p.rbLo ≤ j) && (decide (j ≤ p.rbHi) && d.rb.testBit (j - p.rbLo))) ||
        (decide (p.immLo ≤ j) && (decide (j ≤ p.immHi) && d.imm.toNat.testBit (j - p.immLo)))) := by
  obtain ⟨⟨h1, h2, h3, h4⟩, -⟩ := h
  simp only [encodeFields, BitVec.getLsbD_or, placeField_getLsbD h1, placeField_getLsbD h2, placeField_getLsbD h3,
    placeField_getLsbD h4]

theorem decode_encodeFields_opcode {p : LaunchParams} (h : p.fieldsFit) (d : Decoded) :
    (decode p (encodeFields p d)).opcode = d.opcode % 2 ^ fieldWidth p.opcodeHi p.opcodeLo := by
  have h' := h
  obtain ⟨⟨h1, -⟩, a1, a2, a3, -⟩ := h'
  refine Nat.eq_of_testBit_eq fun k => ?_
  rw [Nat.testBit_mod_two_pow]
  refine (bitField_testBit _ _ _ _).trans ?_
  by_cases hk : k < fieldWidth p.opcodeHi p.opcodeLo
  · have hk' := hk
    unfold fieldWidth at hk'
    rw [encodeFields_getLsbD h, outside_field (by omega) (d.ra.testBit _), outside_field (by omega) (d.rb.testBit _),
      outside_field (by omega) (d.imm.toNat.testBit _)]
    have hle : p.opcodeLo + k ≤ p.opcodeHi := by omega
    simp [hk, hle]
  · simp [hk]

theorem decode_encodeFields_ra {p : LaunchParams} (h : p.fieldsFit) (d : Decoded) :
    (decode p (encodeFields p d)).ra = d.ra % 2 ^ fieldWidth p.raHi p.raLo := by
  have h' := h
  obtain ⟨⟨-, h1, -⟩, a1, -, -, a2, a3, -⟩ := h'
  refine Nat.eq_of_testBit_eq fun k => ?_
  rw [Nat.testBit_mod_two_pow]
  refine (bitField_testBit _ _ _ _).trans ?_
  by_cases hk : k < fieldWidth p.raHi p.raLo
  · have hk' := hk
    unfold fieldWidth at hk'
    rw [encodeFields_getLsbD h, outside_field (by omega) (d.opcode.testBit _), outside_field (by omega) (d.rb.testBit _),
      outside_field (by omega) (d.imm.toNat.testBit _)]
    have hle : p.raLo + k ≤ p.raHi := by omega
    simp [hk, hle]
  · simp [hk]

theorem decode_encodeFields_rb {p : LaunchParams} (h : p.fieldsFit) (d : Decoded) :
    (decode p (encodeFields p d)).rb = d.rb % 2 ^ fieldWidth p.rbHi p.rbLo := by
  have h' := h
  obtain ⟨⟨-, -, h1, -⟩, -, a1, -, a2, -, a3, -⟩ := h'
  refine Nat.eq_of_testBit_eq fun k => ?_
  rw [Nat.testBit_mod_two_pow]
  refine (bitField_testBit _ _ _ _).trans ?_
  by_cases hk : k < fieldWidth p.rbHi p.rbLo
  · have hk' := hk
    unfold fieldWidth at hk'
    rw [encodeFields_getLsbD h, outside_field (by omega) (d.opcode.testBit _), outside_field (by omega) (d.ra.testBit _),
      outside_field (by omega) (d.imm.toNat.testBit _)]
    have hle : p.rbLo + k ≤ p.rbHi := by omega
    simp [hk, hle]
  · simp [hk]

theorem bitField_imm_encodeFields {p : LaunchParams} (h : p.fieldsFit) (d : Decoded) :
    bitField p.immHi p.immLo (encodeFields p d) = d.imm.toNat % 2 ^ fieldWidth p.immHi p.immLo := by
  have h' := h
  obtain ⟨⟨-, -, -, h1⟩, -, -, a1, -, a2, a3, -⟩ := h'
  refine Nat.eq_of_testBit_eq fun k => ?_
  rw [Nat.testBit_mod_two_pow, bitField_testBit]
  by_cases hk : k < fieldWidth p.immHi p.immLo
  · have hk' := hk
    unfold fieldWidth at hk'
    rw [encodeFields_getLsbD h, outside_field (by omega) (d.opcode.testBit _), outside_field (by omega) (d.ra.testBit _),
      outside_field (by omega) (d.rb.testBit _)]
    have hle : p.immLo + k ≤ p.immHi := by omega
    simp [hk, hle]
  · simp [hk]

theorem decode_encodeFields_imm {p : LaunchParams} (h : p.fieldsFit) (d : Decoded) :
    (decode p (encodeFields p d)).imm = sext32 (fieldWidth p.immHi p.immLo) d.imm.toNat := by
  show sext32 _ (bitField p.immHi p.immLo (encodeFields p d)) = _
  rw [bitField_imm_encodeFields h, sext32, signedLow_mod, sext32]

/-- A word in the signed range of the immediate field is the extension of its low bits (R93). -/
theorem sext32_of_immFits {p : LaunchParams} (h : p.fieldsFit) {imm : Word} (hi : immFits p imm = true) :
    sext32 (fieldWidth p.immHi p.immLo) imm.toNat = imm := by
  obtain ⟨⟨-, -, -, h1, h2⟩, -⟩ := h
  simp only [immFits, Bool.and_eq_true, decide_eq_true_eq] at hi
  have hw : fieldWidth p.immHi p.immLo = p.immHi - p.immLo + 1 := by unfold fieldWidth; omega
  have hd : (2 ^ 32 : Nat) % 2 ^ (p.immHi - p.immLo + 1) = 0 :=
    Nat.mod_eq_zero_of_dvd (Nat.pow_dvd_pow 2 (by omega))
  suffices signedLow (fieldWidth p.immHi p.immLo) imm.toNat = imm.toInt by
    rw [sext32, this, w32, BitVec.ofInt_toInt]
  have h3 := BitVec.toInt_eq_toNat_cond imm
  have h4 := imm.isLt
  have h5 := signedLow_emod (fieldWidth p.immHi p.immLo) imm.toNat
  have h6 : imm.toInt % ((2 ^ fieldWidth p.immHi p.immLo : Nat) : Int) =
      (imm.toNat : Int) % ((2 ^ fieldWidth p.immHi p.immLo : Nat) : Int) := by
    rw [h3]
    split
    · rfl
    · rw [hw, Int.sub_emod, show (((2 ^ 32 : Nat) : Int) % ((2 ^ (p.immHi - p.immLo + 1) : Nat) : Int)) = 0 by
        rw [← Int.natCast_mod, hd]; rfl, Int.sub_zero, Int.emod_emod]
  have h7 : (imm.toNat % 2 ^ fieldWidth p.immHi p.immLo) < 2 ^ fieldWidth p.immHi p.immLo :=
    Nat.mod_lt _ (Nat.two_pow_pos _)
  rw [← Int.natCast_mod] at h6
  rw [signedLow]
  rw [hw, Nat.pow_succ] at *
  generalize 2 ^ (p.immHi - p.immLo) = m at *
  generalize imm.toNat % (m * 2) = r at *
  have hm : 0 < m := by omega
  rcases lt_or_ge imm.toInt 0 with hneg | hpos
  · have h9 : (imm.toInt + ((m * 2 : Nat) : Int)) = r := by
      have := Int.emod_eq_of_lt (a := imm.toInt + ((m * 2 : Nat) : Int)) (b := ((m * 2 : Nat) : Int)) (by omega) (by omega)
      rw [Int.add_emod_right, h6] at this
      exact this.symm
    split <;> omega
  · have h9 : imm.toInt = r := by
      have := Int.emod_eq_of_lt (a := imm.toInt) (b := ((m * 2 : Nat) : Int)) (by omega) (by omega)
      rw [h6] at this
      exact this.symm
    split <;> omega

/-- The default immediate field is the word's low half, sign-extended (R93). -/
theorem sext32_default (w : Word) : sext32 16 (bitField 15 0 w) = (w.extractLsb' 0 16).signExtend 32 := by
  have h1 : bitField 15 0 w = (w.extractLsb' 0 16).toNat := bitField_eq_extract 0 15 w
  have h2 := (w.extractLsb' 0 16).isLt
  apply BitVec.eq_of_toInt_eq
  rw [BitVec.toInt_signExtend_of_le (by decide), BitVec.toInt_eq_toNat_cond (w.extractLsb' 0 16), sext32, signedLow_of_lt (h1 ▸ h2), ← h1, w32,
    BitVec.toInt_ofInt]
  rw [h1]
  split <;> (rw [Int.bmod_eq_of_le] <;> omega)

/-! ### Bytes (R61) -/

theorem bytesValue_append (l : List Byte) (b : Byte) :
    bytesValue (l ++ [b]) = bytesValue l + 256 ^ l.length * b.toNat := by
  induction l with
  | nil => simp [bytesValue]
  | cons c l ih =>
    rw [List.cons_append, bytesValue, ih, bytesValue, List.length_cons, Nat.pow_succ]
    ring

/-- The bytes of a word, put together, are the word's low part. -/
theorem bytesValue_bytes (w : Word) (n : Nat) :
    bytesValue ((List.range n).map fun k => w.extractLsb' (8 * k) 8) = w.toNat % 256 ^ n := by
  induction n with
  | zero => simp [bytesValue, Nat.mod_one]
  | succ n ih =>
    rw [List.range_succ, List.map_append, List.map_singleton, bytesValue_append, ih, List.length_map, List.length_range,
      Nat.pow_succ, Nat.mod_mul, BitVec.extractLsb'_toNat, Nat.shiftRight_eq_div_pow, Nat.pow_mul]

theorem bytesOfWord_length (p : LaunchParams) (w : Word) : (bytesOfWord p w).length = p.ilen := by
  unfold bytesOfWord
  split <;> simp

/-- Bytes put together again are the word, under either order (R61). -/
theorem wordOfBytes_bytesOfWord {p : LaunchParams} (h : p.lengthFits) (w : Word) :
    wordOfBytes p (bytesOfWord p w) = w := by
  have hn : w.toNat % 256 ^ p.ilen = w.toNat := by
    refine Nat.mod_eq_of_lt (Nat.lt_of_lt_of_le w.isLt ?_)
    calc 2 ^ 32 = 256 ^ 4 := by norm_num
      _ ≤ 256 ^ p.ilen := Nat.pow_le_pow_right (by norm_num) h
  unfold wordOfBytes bytesOfWord
  cases p.instrByteOrder <;> simp only [List.reverse_reverse, bytesValue_bytes, hn, BitVec.ofNat_toNat, BitVec.setWidth_eq]

theorem take_bytesOfWord (p : LaunchParams) (w : Word) (rest : List Byte) :
    (bytesOfWord p w ++ rest).take p.ilen = bytesOfWord p w := by
  rw [← bytesOfWord_length p w, List.take_left']
  rfl

theorem drop_bytesOfWord (p : LaunchParams) (w : Word) (rest : List Byte) :
    (bytesOfWord p w ++ rest).drop p.ilen = rest := by
  rw [← bytesOfWord_length p w, List.drop_left']
  rfl

/-- The bytes of a word that decodes are read as its instruction, and the bytes after them are left (R61, R95). -/
theorem decodeBytes_of_some {p : LaunchParams} (h : p.lengthFits) {w : Word} {i : Instr} (hd : decodeWord p w = some i)
    (rest : List Byte) : decodeBytes p (bytesOfWord p w ++ rest) = .ok (i, rest) := by
  have hl := bytesOfWord_length p w
  unfold decodeBytes
  rw [if_neg (by rw [List.length_append, hl]; omega), take_bytesOfWord, drop_bytesOfWord, wordOfBytes_bytesOfWord h]
  simp only [hd]

/-- The bytes of a word with an illegal opcode are rejected by that opcode (R61, R99). -/
theorem decodeBytes_of_none {p : LaunchParams} (h : p.lengthFits) {w : Word} (hd : decodeWord p w = none)
    (rest : List Byte) :
    decodeBytes p (bytesOfWord p w ++ rest) = .error (.illegalOpcode (decode p w).opcode) := by
  have hl := bytesOfWord_length p w
  unfold decodeBytes
  rw [if_neg (by rw [List.length_append, hl]; omega), take_bytesOfWord, wordOfBytes_bytesOfWord h]
  simp only [hd]

/-- The table word of the host's numbering is the word that the decoder reads. -/
theorem decodeTableWord_eq (nbits w : Nat) : decodeTableWord nbits w = decodeWord {} (tableWord nbits w) := by
  have hf : ({} : LaunchParams).lengthFits := by decide
  unfold decodeTableWord
  cases hd : decodeWord {} (tableWord nbits w) with
  | none =>
    have e := decodeBytes_of_none hf hd []
    rw [List.append_nil] at e
    simp only [e]
  | some i =>
    have e := decodeBytes_of_some hf hd []
    rw [List.append_nil] at e
    simp only [e]

end Sys2Proof
end

