-- ==== Sys2Proof/Laws/State.lean ====
section
/-! SUPPORT. One lemma per field of `State` per update, so that no later proof unfolds a record update. -/

namespace Sys2Proof.Machine

/-! ### `setReg` -/

@[simp] theorem State.setReg_pc (s : State) (i : RegIdx) (v : Word) : (s.setReg i v).pc = s.pc := rfl
@[simp] theorem State.setReg_mem (s : State) (i : RegIdx) (v : Word) : (s.setReg i v).mem = s.mem := rfl
@[simp] theorem State.setReg_status (s : State) (i : RegIdx) (v : Word) : (s.setReg i v).status = s.status := rfl
@[simp] theorem State.setReg_out (s : State) (i : RegIdx) (v : Word) : (s.setReg i v).out = s.out := rfl
@[simp] theorem State.setReg_inPos (s : State) (i : RegIdx) (v : Word) : (s.setReg i v).inPos = s.inPos := rfl
@[simp] theorem State.setReg_prog (s : State) (i : RegIdx) (v : Word) : (s.setReg i v).prog = s.prog := rfl
@[simp] theorem State.setReg_inChan (s : State) (i : RegIdx) (v : Word) : (s.setReg i v).inChan = s.inChan := rfl
@[simp] theorem State.setReg_params (s : State) (i : RegIdx) (v : Word) : (s.setReg i v).params = s.params := rfl

@[simp] theorem State.setReg_length (s : State) (i : RegIdx) (v : Word) :
    (s.setReg i v).regs.length = s.regs.length := by
  simp [State.setReg]
@[simp] theorem nextPc_setReg (s : State) (i : RegIdx) (v : Word) : nextPc (s.setReg i v) = nextPc s := rfl

/-- A register write is seen at its index, where that is in the file, and nowhere else (R137, R48). -/
theorem State.setReg_reg (s : State) (i j : RegIdx) (v : Word) :
    (s.setReg i v).reg j = if j = i ∧ i < s.regs.length then s.params.fit v else s.reg j := by
  simp only [State.reg, State.setReg, List.getD_eq_getElem?_getD, List.getElem?_set]
  by_cases h : i = j
  · subst h
    by_cases hl : i < s.regs.length <;> simp [hl]
  · simp [h, Ne.symm h]

theorem State.setReg_reg_self {s : State} {i : RegIdx} (h : i < s.regs.length) (v : Word) :
    (s.setReg i v).reg i = s.params.fit v := by
  rw [State.setReg_reg, if_pos ⟨rfl, h⟩]

theorem State.setReg_reg_ne (s : State) {i j : RegIdx} (h : j ≠ i) (v : Word) : (s.setReg i v).reg j = s.reg j := by
  rw [State.setReg_reg, if_neg fun e => h e.1]

/-- No register write leaves a bit above `XLEN`. -/
theorem State.setReg_regsFit {s : State} (h : ∀ v ∈ s.regs, v.toNat < 2 ^ s.params.xlen) (i : RegIdx) (v : Word) :
    ∀ w ∈ (s.setReg i v).regs, w.toNat < 2 ^ s.params.xlen := by
  intro w hw
  rcases List.mem_or_eq_of_mem_set hw with hw | rfl
  · exact h w hw
  · exact s.params.fit_lt v

/-- In a shaped state a register reads `XLEN` bits. -/
theorem State.Shaped.reg_lt {s : State} (hs : s.Shaped) (i : RegIdx) : (s.reg i).toNat < 2 ^ s.params.xlen := by
  rw [State.reg, List.getD_eq_getElem?_getD]
  cases h : s.regs[i]? with
  | none => exact Nat.two_pow_pos _
  | some v => exact hs.regsFit v (List.mem_of_getElem? h)

@[simp] theorem State.Shaped.fit_reg {s : State} (hs : s.Shaped) (i : RegIdx) : s.params.fit (s.reg i) = s.reg i :=
  LaunchParams.fit_of_lt (hs.reg_lt i)

/-! ### The stack pointer and the flags register -/

theorem State.setSp_sp {s : State} (h : s.params.spIdx < s.regs.length) (v : Word) :
    (s.setSp v).sp = s.params.fit v :=
  State.setReg_reg_self h v

theorem State.setSp_reg_ne (s : State) {j : RegIdx} (h : j ≠ s.params.spIdx) (v : Word) : (s.setSp v).reg j = s.reg j :=
  State.setReg_reg_ne s h v

theorem State.setFlags_flags {s : State} (h : s.params.flagsIdx < s.regs.length) (v : Word) :
    (s.setFlags v).flags = s.params.fit v :=
  State.setReg_reg_self h v

theorem State.setFlags_reg_ne (s : State) {j : RegIdx} (h : j ≠ s.params.flagsIdx) (v : Word) :
    (s.setFlags v).reg j = s.reg j :=
  State.setReg_reg_ne s h v

/-! ### `setPc` -/

@[simp] theorem State.setPc_regs (s : State) (t : Word) : (s.setPc t).regs = s.regs := rfl
@[simp] theorem State.setPc_pc (s : State) (t : Word) : (s.setPc t).pc = s.params.pcFit t := rfl
@[simp] theorem State.setPc_mem (s : State) (t : Word) : (s.setPc t).mem = s.mem := rfl
@[simp] theorem State.setPc_status (s : State) (t : Word) : (s.setPc t).status = s.status := rfl
@[simp] theorem State.setPc_out (s : State) (t : Word) : (s.setPc t).out = s.out := rfl
@[simp] theorem State.setPc_inPos (s : State) (t : Word) : (s.setPc t).inPos = s.inPos := rfl
@[simp] theorem State.setPc_prog (s : State) (t : Word) : (s.setPc t).prog = s.prog := rfl
@[simp] theorem State.setPc_inChan (s : State) (t : Word) : (s.setPc t).inChan = s.inChan := rfl
@[simp] theorem State.setPc_params (s : State) (t : Word) : (s.setPc t).params = s.params := rfl
@[simp] theorem State.setPc_reg (s : State) (t : Word) (j : RegIdx) : (s.setPc t).reg j = s.reg j := rfl

/-! ### `setMem` -/

@[simp] theorem State.setMem_regs (s : State) (m : Memory) : (s.setMem m).regs = s.regs := rfl
@[simp] theorem State.setMem_pc (s : State) (m : Memory) : (s.setMem m).pc = s.pc := rfl
@[simp] theorem State.setMem_mem (s : State) (m : Memory) : (s.setMem m).mem = m := rfl
@[simp] theorem State.setMem_status (s : State) (m : Memory) : (s.setMem m).status = s.status := rfl
@[simp] theorem State.setMem_out (s : State) (m : Memory) : (s.setMem m).out = s.out := rfl
@[simp] theorem State.setMem_inPos (s : State) (m : Memory) : (s.setMem m).inPos = s.inPos := rfl
@[simp] theorem State.setMem_prog (s : State) (m : Memory) : (s.setMem m).prog = s.prog := rfl
@[simp] theorem State.setMem_inChan (s : State) (m : Memory) : (s.setMem m).inChan = s.inChan := rfl
@[simp] theorem State.setMem_params (s : State) (m : Memory) : (s.setMem m).params = s.params := rfl
@[simp] theorem State.setMem_reg (s : State) (m : Memory) (j : RegIdx) : (s.setMem m).reg j = s.reg j := rfl
@[simp] theorem nextPc_setMem (s : State) (m : Memory) : nextPc (s.setMem m) = nextPc s := rfl

/-! ### `emit` -/

@[simp] theorem State.emit_regs (s : State) (v : Word) : (s.emit v).regs = s.regs := rfl
@[simp] theorem State.emit_pc (s : State) (v : Word) : (s.emit v).pc = s.pc := rfl
@[simp] theorem State.emit_mem (s : State) (v : Word) : (s.emit v).mem = s.mem := rfl
@[simp] theorem State.emit_status (s : State) (v : Word) : (s.emit v).status = s.status := rfl
@[simp] theorem State.emit_out (s : State) (v : Word) : (s.emit v).out = s.out ++ [v] := rfl
@[simp] theorem State.emit_inPos (s : State) (v : Word) : (s.emit v).inPos = s.inPos := rfl
@[simp] theorem State.emit_prog (s : State) (v : Word) : (s.emit v).prog = s.prog := rfl
@[simp] theorem State.emit_inChan (s : State) (v : Word) : (s.emit v).inChan = s.inChan := rfl
@[simp] theorem State.emit_params (s : State) (v : Word) : (s.emit v).params = s.params := rfl
@[simp] theorem State.emit_reg (s : State) (v : Word) (j : RegIdx) : (s.emit v).reg j = s.reg j := rfl
@[simp] theorem nextPc_emit (s : State) (v : Word) : nextPc (s.emit v) = nextPc s := rfl

/-! ### `consume` -/

@[simp] theorem State.consume_regs (s : State) : (s.consume).regs = s.regs := rfl
@[simp] theorem State.consume_pc (s : State) : (s.consume).pc = s.pc := rfl
@[simp] theorem State.consume_mem (s : State) : (s.consume).mem = s.mem := rfl
@[simp] theorem State.consume_status (s : State) : (s.consume).status = s.status := rfl
@[simp] theorem State.consume_out (s : State) : (s.consume).out = s.out := rfl
@[simp] theorem State.consume_inPos (s : State) : (s.consume).inPos = s.inPos + 1 := rfl
@[simp] theorem State.consume_prog (s : State) : (s.consume).prog = s.prog := rfl
@[simp] theorem State.consume_inChan (s : State) : (s.consume).inChan = s.inChan := rfl
@[simp] theorem State.consume_params (s : State) : (s.consume).params = s.params := rfl
@[simp] theorem State.consume_reg (s : State) (j : RegIdx) : (s.consume).reg j = s.reg j := rfl
@[simp] theorem nextPc_consume (s : State) : nextPc s.consume = nextPc s := rfl

/-! ### `advance` -/

@[simp] theorem State.advance_regs (s : State) : (s.advance).regs = s.regs := rfl
@[simp] theorem State.advance_pc (s : State) : (s.advance).pc = nextPc s := s.params.pcFit_pcFit _
@[simp] theorem State.advance_mem (s : State) : (s.advance).mem = s.mem := rfl
@[simp] theorem State.advance_status (s : State) : (s.advance).status = s.status := rfl
@[simp] theorem State.advance_out (s : State) : (s.advance).out = s.out := rfl
@[simp] theorem State.advance_inPos (s : State) : (s.advance).inPos = s.inPos := rfl
@[simp] theorem State.advance_prog (s : State) : (s.advance).prog = s.prog := rfl
@[simp] theorem State.advance_inChan (s : State) : (s.advance).inChan = s.inChan := rfl
@[simp] theorem State.advance_params (s : State) : (s.advance).params = s.params := rfl
@[simp] theorem State.advance_reg (s : State) (j : RegIdx) : (s.advance).reg j = s.reg j := rfl

/-! ### `faultedAt` -/

@[simp] theorem faultedAt_regs (kind : FaultKind) (s : State) : (faultedAt kind s).regs = s.regs := rfl
@[simp] theorem faultedAt_pc (kind : FaultKind) (s : State) : (faultedAt kind s).pc = s.pc := rfl
@[simp] theorem faultedAt_mem (kind : FaultKind) (s : State) : (faultedAt kind s).mem = s.mem := rfl
@[simp] theorem faultedAt_status (kind : FaultKind) (s : State) : (faultedAt kind s).status = .faulted kind s.pc := rfl
@[simp] theorem faultedAt_out (kind : FaultKind) (s : State) : (faultedAt kind s).out = s.out := rfl
@[simp] theorem faultedAt_inPos (kind : FaultKind) (s : State) : (faultedAt kind s).inPos = s.inPos := rfl
@[simp] theorem faultedAt_prog (kind : FaultKind) (s : State) : (faultedAt kind s).prog = s.prog := rfl
@[simp] theorem faultedAt_inChan (kind : FaultKind) (s : State) : (faultedAt kind s).inChan = s.inChan := rfl
@[simp] theorem faultedAt_params (kind : FaultKind) (s : State) : (faultedAt kind s).params = s.params := rfl
@[simp] theorem faultedAt_reg (kind : FaultKind) (s : State) (j : RegIdx) : (faultedAt kind s).reg j = s.reg j := rfl

/-! ### Reset -/

theorem resetWith_reg (p : LaunchParams) {i : RegIdx} (h : p.spIdx < p.nregs) :
    (State.resetWith p).reg i = if i = p.spIdx then p.word p.spReset else 0#32 := by
  simp only [State.reg, State.resetWith, List.getD_eq_getElem?_getD, List.getElem?_set, List.length_replicate, h, if_true]
  by_cases hi : p.spIdx = i
  · simp [hi]
  · rw [if_neg hi, if_neg (Ne.symm hi), List.getElem?_replicate]
    split <;> rfl

theorem resetWith_shaped {p : LaunchParams} (h : p.wf) : (State.resetWith p).Shaped where
  params := h
  regs := by simp [State.resetWith]
  regsFit := by
    intro v hv
    rcases List.mem_or_eq_of_mem_set hv with hv | rfl
    · rw [List.eq_of_mem_replicate hv]
      exact Nat.two_pow_pos _
    · exact p.fit_lt _
  pcFits := Nat.two_pow_pos _

/-! ### Every update keeps the shape -/

theorem State.Shaped.setReg {s : State} (h : s.Shaped) (i : RegIdx) (v : Word) : (s.setReg i v).Shaped :=
  ⟨h.params, (State.setReg_length s i v).trans h.regs, State.setReg_regsFit h.regsFit i v, h.pcFits⟩

theorem State.Shaped.setPc {s : State} (h : s.Shaped) (t : Word) : (s.setPc t).Shaped :=
  ⟨h.params, h.regs, h.regsFit, s.params.pcFit_lt t⟩

theorem State.Shaped.advance {s : State} (h : s.Shaped) : s.advance.Shaped := h.setPc _

theorem State.Shaped.setMem {s : State} (h : s.Shaped) (m : Memory) : (s.setMem m).Shaped :=
  ⟨h.params, h.regs, h.regsFit, h.pcFits⟩

theorem State.Shaped.emit {s : State} (h : s.Shaped) (v : Word) : (s.emit v).Shaped :=
  ⟨h.params, h.regs, h.regsFit, h.pcFits⟩

theorem State.Shaped.consume {s : State} (h : s.Shaped) : s.consume.Shaped :=
  ⟨h.params, h.regs, h.regsFit, h.pcFits⟩

end Sys2Proof.Machine
end

