-- ==== Sys2Proof/Laws/Memory.lean ====
section
/-! SUPPORT. The laws of data memory (spec/20_memory.md R60 to R72): a read after a write, and the canonical form. -/

namespace Sys2Proof.Machine

/-! ### One byte -/

theorem Memory.read_nil (a : Nat) : Memory.read [] a = 0 := rfl

theorem Memory.read_of_not_mem {m : Memory} {a : Nat} (h : ∀ c ∈ m, c.1 ≠ a) : m.read a = 0 := by
  induction m with
  | nil => rfl
  | cons c m ih =>
    rw [List.forall_mem_cons] at h
    simp [Memory.read, h.1, ih h.2]

theorem Memory.unlist_not_mem (m : Memory) (a : Nat) : ∀ c ∈ m.unlist a, c.1 ≠ a := by
  simp [Memory.unlist]

theorem Memory.read_unlist (m : Memory) (a b : Nat) : (m.unlist a).read b = if b = a then 0 else m.read b := by
  by_cases h : b = a
  · subst h; simp [Memory.read_of_not_mem (Memory.unlist_not_mem m b)]
  · simp only [h, if_false]
    induction m with
    | nil => rfl
    | cons c m ih =>
      by_cases hc : c.1 = a
      · have : Memory.unlist (c :: m) a = Memory.unlist m a := by simp [Memory.unlist, hc]
        rw [this, ih, Memory.read, if_neg (by omega)]
      · have : Memory.unlist (c :: m) a = c :: Memory.unlist m a := by simp [Memory.unlist, hc]
        rw [this, Memory.read, Memory.read, ih]

theorem Memory.read_listByte {m : Memory} {a : Nat} (h : ∀ c ∈ m, c.1 ≠ a) (v : Byte) (b : Nat) :
    (m.listByte a v).read b = if b = a then v else m.read b := by
  induction m with
  | nil => by_cases hb : a = b <;> simp [Memory.listByte, Memory.read, hb, eq_comm]
  | cons c m ih =>
    rw [List.forall_mem_cons] at h
    unfold Memory.listByte
    split
    · by_cases hb : b = a
      · rw [Memory.read, if_pos hb.symm, if_pos hb]
      · rw [Memory.read, if_neg (Ne.symm hb), if_neg hb]
    · rw [Memory.read, ih h.2, Memory.read]
      by_cases hc : c.1 = b
      · rw [if_pos hc, if_pos hc, if_neg fun e => h.1 (hc.trans e)]
      · rw [if_neg hc, if_neg hc]

/-- A byte write is seen at its address and nowhere else (R72). -/
@[simp] theorem Memory.read_write (m : Memory) (a : Nat) (v : Byte) (b : Nat) :
    (m.write a v).read b = if b = a then v else m.read b := by
  unfold Memory.write
  split
  · next h => simp only [h, Memory.read_unlist, Memory.resetByte]
  · rw [Memory.read_listByte (Memory.unlist_not_mem m a), Memory.read_unlist]
    split <;> rfl

/-! ### The canonical form -/

theorem Memory.wf_unlist {m : Memory} (h : m.wf) (a : Nat) : (m.unlist a).wf :=
  ⟨h.1.filter _, fun c hc => h.2 c (List.mem_filter.mp hc).1⟩

theorem Memory.mem_listByte {m : Memory} {a : Nat} {v : Byte} {c : Host.Cell} :
    c ∈ m.listByte a v ↔ c = (a, v) ∨ c ∈ m := by
  induction m with
  | nil => simp [Memory.listByte]
  | cons d m ih =>
    unfold Memory.listByte
    split
    · simp
    · simp only [List.mem_cons, ih]; tauto

theorem Memory.wf_listByte {m : Memory} (h : m.wf) {a : Nat} (ha : ∀ c ∈ m, c.1 ≠ a) {v : Byte} (hv : v ≠ 0) :
    (m.listByte a v).wf := by
  refine ⟨?_, fun c hc => (Memory.mem_listByte.mp hc).elim (fun e => e ▸ hv) (h.2 c)⟩
  have h1 := h.1
  clear h
  induction m with
  | nil => simp [Memory.listByte]
  | cons d m ih =>
    rw [List.forall_mem_cons] at ha
    rw [List.pairwise_cons] at h1
    unfold Memory.listByte
    split
    · next hlt =>
      refine List.pairwise_cons.mpr ⟨?_, List.pairwise_cons.mpr h1⟩
      intro c hc
      rcases List.mem_cons.mp hc with rfl | hc
      · exact hlt
      · exact Nat.lt_trans hlt (h1.1 c hc)
    · next hge =>
      refine List.pairwise_cons.mpr ⟨?_, ih ha.2 h1.2⟩
      intro c hc
      rcases Memory.mem_listByte.mp hc with rfl | hc
      · have := ha.1
        show d.1 < a
        omega
      · exact h1.1 c hc

/-- A byte write keeps the canonical form. -/
theorem Memory.wf_write {m : Memory} (h : m.wf) (a : Nat) (v : Byte) : (m.write a v).wf := by
  unfold Memory.write
  split
  · exact Memory.wf_unlist h a
  · next hv => exact Memory.wf_listByte (Memory.wf_unlist h a) (Memory.unlist_not_mem m a) hv

theorem Memory.inRange_write {size : Nat} {m : Memory} (h : m.inRange size) {a : Nat} (ha : a < size) (v : Byte) :
    (m.write a v).inRange size := by
  intro c hc
  have key : c ∈ m.unlist a → c.1 < size := fun hm => h c (List.mem_filter.mp hm).1
  unfold Memory.write at hc
  split at hc
  · exact key hc
  · rcases Memory.mem_listByte.mp hc with rfl | hm
    · exact ha
    · exact key hm

/-- A canonical memory is fixed by what its bytes read as. -/
theorem Memory.ext_of_wf {m n : Memory} (hm : m.wf) (hn : n.wf) (h : ∀ a, m.read a = n.read a) : m = n := by
  induction m generalizing n with
  | nil =>
    cases n with
    | nil => rfl
    | cons d n =>
      have := h d.1
      simp [Memory.read, Memory.resetByte] at this
      exact absurd this.symm (hn.2 d (List.mem_cons_self ..))
  | cons c m ih =>
    have hc := hm.2 c (List.mem_cons_self ..)
    have hm1 := List.pairwise_cons.mp hm.1
    have hmt : Memory.wf m := ⟨hm1.2, fun e he => hm.2 e (List.mem_cons_of_mem _ he)⟩
    cases n with
    | nil =>
      have := h c.1
      simp [Memory.read, Memory.resetByte] at this
      exact absurd this hc
    | cons d n =>
      have hd := hn.2 d (List.mem_cons_self ..)
      have hn1 := List.pairwise_cons.mp hn.1
      have hnt : Memory.wf n := ⟨hn1.2, fun e he => hn.2 e (List.mem_cons_of_mem _ he)⟩
      have tail_zero : ∀ (l : Memory) (x : Nat), (∀ e ∈ l, x < e.1) → Memory.read l x = 0 := fun l x hl =>
        Memory.read_of_not_mem fun e he => Nat.ne_of_gt (hl e he)
      have hkey : c.1 = d.1 := by
        rcases Nat.lt_trichotomy c.1 d.1 with hlt | heq | hgt
        · have h1 := h c.1
          rw [Memory.read, if_pos rfl, Memory.read, if_neg (Nat.ne_of_gt hlt),
            tail_zero n c.1 fun e he => Nat.lt_trans hlt (hn1.1 e he)] at h1
          exact absurd h1 hc
        · exact heq
        · have h1 := h d.1
          rw [Memory.read, if_neg (Nat.ne_of_gt hgt), tail_zero m d.1 fun e he => Nat.lt_trans hgt (hm1.1 e he),
            Memory.read, if_pos rfl] at h1
          exact absurd h1.symm hd
      have hval : c.2 = d.2 := by
        have h1 := h c.1
        rw [Memory.read, if_pos rfl, Memory.read, if_pos hkey.symm] at h1
        exact h1
      have htail : m = n := by
        refine ih hmt hnt fun a => ?_
        have h1 := h a
        rw [Memory.read, Memory.read, ← hkey] at h1
        by_cases ha : c.1 = a
        · subst ha
          rw [tail_zero m c.1 hm1.1, tail_zero n c.1 fun e he => hkey ▸ hn1.1 e he]
        · simpa [ha] using h1
      rw [htail, Prod.ext hkey hval]

/-! ### Words -/

/-- A word write byte by byte (R63, R72). -/
theorem Memory.read_writeWord (m : Memory) (a : Nat) (v : Word) (b : Nat) :
    (m.writeWord a v).read b =
      if b = a + 3 then wordByte v 3 else if b = a + 2 then wordByte v 2 else if b = a + 1 then wordByte v 1
        else if b = a then wordByte v 0 else m.read b := by
  simp only [Memory.writeWord, Memory.read_write]

/-- Outside its four bytes a word write changes nothing (R63). -/
theorem Memory.read_writeWord_outside (m : Memory) {a b : Nat} (v : Word) (h : b < a ∨ a + 4 ≤ b) :
    (m.writeWord a v).read b = m.read b := by
  rw [Memory.read_writeWord, if_neg (by omega), if_neg (by omega), if_neg (by omega), if_neg (by omega)]

/-- The bytes of a word, put together, are the word (R60, R62, R63). -/
theorem wordByte_append (v : Word) : wordByte v 3 ++ wordByte v 2 ++ wordByte v 1 ++ wordByte v 0 = v := by
  ext k hk
  simp only [wordByte, BitVec.getElem_append, BitVec.getElem_extractLsb']
  split
  · next h => simp [← BitVec.getLsbD_eq_getElem]
  · split
    · next h1 h => rw [← BitVec.getLsbD_eq_getElem]; congr 1; omega
    · split
      · rw [← BitVec.getLsbD_eq_getElem]; congr 1; omega
      · rw [← BitVec.getLsbD_eq_getElem]; congr 1; omega

/-- A word read after a word write to the same address gives the word (R72). -/
@[simp] theorem Memory.readWord_writeWord (m : Memory) (a : Nat) (v : Word) : (m.writeWord a v).readWord a = v := by
  rw [Memory.readWord]
  simp only [Memory.read_writeWord]
  have h1 : a + 2 ≠ a + 3 := by omega
  have h2 : a + 1 ≠ a + 3 := by omega
  have h3 : a ≠ a + 3 := by omega
  have h4 : a + 1 ≠ a + 2 := by omega
  have h5 : a ≠ a + 2 := by omega
  have h6 : a ≠ a + 1 := by omega
  simp only [if_true, h1, h2, h3, h4, h5, h6, if_false]
  exact wordByte_append v

/-- A word read is fixed by its four bytes (R62). -/
theorem Memory.readWord_congr {m n : Memory} {a : Nat} (h : ∀ b, a ≤ b → b < a + 4 → n.read b = m.read b) :
    n.readWord a = m.readWord a := by
  simp only [Memory.readWord, h (a + 3) (by omega) (by omega), h (a + 2) (by omega) (by omega),
    h (a + 1) (by omega) (by omega), h a (by omega) (by omega)]

theorem Memory.wf_writeWord {m : Memory} (h : m.wf) (a : Nat) (v : Word) : (m.writeWord a v).wf :=
  Memory.wf_write (Memory.wf_write (Memory.wf_write (Memory.wf_write h _ _) _ _) _ _) _ _

theorem Memory.inRange_writeWord {size : Nat} {m : Memory} (h : m.inRange size) {a : Nat} (ha : a + 4 ≤ size) (v : Word) :
    (m.writeWord a v).inRange size :=
  Memory.inRange_write (Memory.inRange_write (Memory.inRange_write (Memory.inRange_write h (by omega) _) (by omega) _)
    (by omega) _) (by omega) _

end Sys2Proof.Machine
end

