-- ==== Sys2Proof/Laws/Ops.lean ====
section
/-! SUPPORT. One lemma per shared operation that says everything the operation can do. -/

namespace Sys2Proof.Machine

/-! ### ALU (R139, R140): the integer formulas are the wrapping operations on words -/

@[simp] theorem w32_eq (n : Int) : w32 n = BitVec.ofInt 32 n := rfl

@[simp] theorem aluAdd_eq (p : LaunchParams) (a b : Word) : aluAdd p a b = p.fit (a + b) := by
  refine congrArg p.fit (BitVec.eq_of_toNat_eq ?_)
  simp [BitVec.toNat_ofInt, BitVec.toNat_add]
  omega

@[simp] theorem aluSub_eq (p : LaunchParams) (a b : Word) : aluSub p a b = p.fit (a - b) := by
  refine congrArg p.fit (BitVec.eq_of_toNat_eq ?_)
  simp [BitVec.toNat_ofInt, BitVec.toNat_sub]
  omega

/-- The product mod `2 ^ XLEN`, as a number (R140). -/
theorem aluMul_toNat {p : LaunchParams} (h : p.wf) (a b : Word) :
    ((aluMul p a b).toNat : Int) = p.signed a * p.signed b % ((2 ^ p.xlen : Nat) : Int) :=
  LaunchParams.word_toNat h _

@[simp] theorem aluShr1_eq (p : LaunchParams) (a : Word) : aluShr1 p a = p.fit (a >>> p.shrAmount) := by
  have h := p.word_eq_fit (a >>> p.shrAmount)
  rwa [BitVec.toNat_ushiftRight, Nat.shiftRight_eq_div_pow] at h

@[simp] theorem fallthru_eq (s : State) : fallthru s.params s.pc = nextPc s := rfl

@[simp] theorem target_eq (p : LaunchParams) (pc imm : Word) : target p pc imm = p.pcFit (pc + imm) := rfl

/-- A difference of two `XLEN`-bit values, unsigned. -/
theorem fit_sub_toNat {p : LaunchParams} (h : p.wf) {a b : Word} (ha : a.toNat < 2 ^ p.xlen) (hb : b.toNat < 2 ^ p.xlen) :
    (p.fit (b - a)).toNat = if a.toNat ≤ b.toNat then b.toNat - a.toNat else b.toNat + 2 ^ p.xlen - a.toNat := by
  have e : p.fit (b - a) = p.word ((b.toNat : Int) - a.toNat) := by rw [← aluSub_eq]; rfl
  have h1 := LaunchParams.word_toNat h ((b.toNat : Int) - a.toNat)
  rw [e]
  generalize (p.word ((b.toNat : Int) - a.toNat)).toNat = r at h1
  generalize 2 ^ p.xlen = m at ha hb h1
  split
  · rw [Int.emod_eq_of_lt (by omega) (by omega)] at h1
    omega
  · rw [← Int.add_emod_right, Int.emod_eq_of_lt (by omega) (by omega)] at h1
    omega

/-- A push moves the stack pointer down by 4. -/
theorem word_pushAddr {p : LaunchParams} (h : p.wf) (sp : Word) : p.word (pushAddr p sp) = p.fit (sp - 4#32) := by
  have e : p.fit (sp - 4#32) = p.word ((sp.toNat : Int) - 4) := by rw [← aluSub_eq]; rfl
  apply BitVec.eq_of_toNat_eq
  have h1 := LaunchParams.word_toNat h (pushAddr p sp)
  have h2 := LaunchParams.word_toNat h ((sp.toNat : Int) - 4)
  have h3 : pushAddr p sp % ((2 ^ p.xlen : Nat) : Int) = ((sp.toNat : Int) - 4) % ((2 ^ p.xlen : Nat) : Int) := by
    rw [pushAddr, LaunchParams.signed, Int.sub_emod, signedLow_emod, ← Int.sub_emod]
  rw [e]
  omega

/-! ### Register fields (R136) -/

theorem checkField_eq_some {p : LaunchParams} {f : RegField} {i : RegIdx} :
    checkField p f = some i ↔ f = i ∧ i < p.nregs ∧ (i = p.flagsIdx → p.flagsOperand = .asRegister) := by
  unfold checkField
  constructor
  · intro h
    split at h
    · cases h
    · next hn =>
      split at h
      · cases h
      · next hf =>
        obtain rfl := Option.some.inj h
        refine ⟨rfl, Nat.lt_of_not_le hn, fun e => ?_⟩
        cases hp : p.flagsOperand with
        | fault => exact absurd ⟨e, hp⟩ hf
        | asRegister => rfl
  · rintro ⟨rfl, hl, hf⟩
    rw [if_neg (Nat.not_le.mpr hl), if_neg]
    rintro ⟨e, hp⟩
    simp [hf e] at hp

theorem checkField_eq_none {p : LaunchParams} {f : RegField} :
    checkField p f = none ↔ p.nregs ≤ f ∨ (f = p.flagsIdx ∧ p.flagsOperand = .fault) := by
  unfold checkField
  by_cases h1 : p.nregs ≤ f <;> by_cases h2 : f = p.flagsIdx ∧ p.flagsOperand = .fault <;> simp [h1, h2]

/-- A field either names a register or is illegal, never both. -/
theorem names_or_illegal (s : State) (f : RegField) : (∃ i, Names s f i) ∨ IllegalField s f := by
  cases h : checkField s.params f with
  | some i => exact .inl ⟨i, checkField_eq_some.mp h⟩
  | none => exact .inr (checkField_eq_none.mp h)

theorem Names.unique {s : State} {f : RegField} {i j : RegIdx} (hi : Names s f i) (hj : Names s f j) : i = j :=
  hi.1.symm.trans hj.1

theorem Names.not_illegal {s : State} {f : RegField} {i : RegIdx} (h : Names s f i) : ¬ IllegalField s f := by
  intro hn
  have h1 := checkField_eq_some.mpr h
  rw [checkField_eq_none.mpr hn] at h1
  exact absurd h1 (by simp)

/-- Under the default policy no field names the flags register (R33). -/
theorem Names.ne_flags {s : State} {f : RegField} {i : RegIdx} (h : Names s f i)
    (hp : s.params.flagsOperand = .fault) : i ≠ s.params.flagsIdx := by
  intro e
  simpa [hp] using h.2.2 e

/-- In a shaped state a register that a field names is an entry of the file (R30). -/
theorem Names.lt_length {s : State} {f : RegField} {i : RegIdx} (h : Names s f i) (hs : s.Shaped) : i < s.regs.length :=
  hs.regs ▸ h.2.1

theorem State.Shaped.sp_lt {s : State} (hs : s.Shaped) : s.params.spIdx < s.regs.length := hs.regs ▸ hs.params.2.1.1

theorem State.Shaped.flags_lt {s : State} (hs : s.Shaped) : s.params.flagsIdx < s.regs.length := hs.regs ▸ hs.params.2.1.2.1

/-- The stack pointer and the flags register are two registers (R48). -/
theorem State.Shaped.sp_ne_flags {s : State} (hs : s.Shaped) : s.params.spIdx ≠ s.params.flagsIdx := hs.params.2.1.2.2

theorem takeFault_eq (kind : FaultKind) (s : State) : takeFault kind s = .next (faultedAt kind s) := rfl

theorem withField_of_names {w : FieldName} {f : RegField} {s : State} {k : RegIdx → Out} {i : RegIdx}
    (h : Names s f i) : withField w f s k = k i := by
  simp only [withField, checkField_eq_some.mpr h]

theorem withField_of_illegal {w : FieldName} {f : RegField} {s : State} {k : RegIdx → Out}
    (h : IllegalField s f) : withField w f s k = .next (faultedAt (.illegalRegister f w) s) := by
  simp only [withField, checkField_eq_none.mpr h, takeFault_eq]

/-- All that a checked field can do. -/
theorem withField_cases (w : FieldName) (f : RegField) (s : State) (k : RegIdx → Out) :
    (∃ i, Names s f i ∧ withField w f s k = k i) ∨
      (IllegalField s f ∧ withField w f s k = .next (faultedAt (.illegalRegister f w) s)) :=
  (names_or_illegal s f).imp (fun ⟨i, h⟩ => ⟨i, h, withField_of_names h⟩) fun h => ⟨h, withField_of_illegal h⟩

theorem withFields_of_names {ra rb : RegField} {s : State} {k : RegIdx → RegIdx → Out} {i j : RegIdx}
    (ha : Names s ra i) (hb : Names s rb j) : withFields ra rb s k = k i j := by
  simp only [withFields, withField_of_names ha, withField_of_names hb]

/-- The field ra is checked first (R274 item 5). -/
theorem withFields_of_illegal_ra {ra rb : RegField} {s : State} {k : RegIdx → RegIdx → Out}
    (h : IllegalField s ra) : withFields ra rb s k = .next (faultedAt (.illegalRegister ra .ra) s) := by
  simp only [withFields, withField_of_illegal h]

theorem withFields_of_illegal_rb {ra rb : RegField} {s : State} {k : RegIdx → RegIdx → Out} {i : RegIdx}
    (ha : Names s ra i) (h : IllegalField s rb) :
    withFields ra rb s k = .next (faultedAt (.illegalRegister rb .rb) s) := by
  simp only [withFields, withField_of_names ha, withField_of_illegal h]

/-- All that two checked fields can do. -/
theorem withFields_cases (ra rb : RegField) (s : State) (k : RegIdx → RegIdx → Out) :
    (∃ i j, Names s ra i ∧ Names s rb j ∧ withFields ra rb s k = k i j) ∨
      (∃ f w, (f = ra ∧ w = .ra ∨ f = rb ∧ w = .rb) ∧ IllegalField s f ∧
        withFields ra rb s k = .next (faultedAt (.illegalRegister f w) s)) := by
  rcases names_or_illegal s ra with ⟨i, ha⟩ | ha
  · rcases names_or_illegal s rb with ⟨j, hb⟩ | hb
    · exact .inl ⟨i, j, ha, hb, withFields_of_names ha hb⟩
    · exact .inr ⟨rb, .rb, .inr ⟨rfl, rfl⟩, hb, withFields_of_illegal_rb ha hb⟩
  · exact .inr ⟨ra, .ra, .inl ⟨rfl, rfl⟩, ha, withFields_of_illegal_ra ha⟩

/-! ### Data memory (R62, R63) -/

theorem inBounds_eq_true {s : State} {a : Int} : inBounds s.params a = true ↔ InSpace s a := by
  simp [inBounds, InSpace]

theorem withMemRead_of_inSpace {a : Int} {s : State} {k : Word → Out} (h : InSpace s a) :
    withMemRead a s k = k (s.mem.readWord a.toNat) := by
  rw [withMemRead, if_pos (inBounds_eq_true.mpr h)]

theorem withMemRead_of_outside {a : Int} {s : State} {k : Word → Out} (h : ¬ InSpace s a) :
    withMemRead a s k = .next (faultedAt (.memoryOutOfBounds a) s) := by
  rw [withMemRead, if_neg (fun e => h (inBounds_eq_true.mp e)), takeFault_eq]

/-- All that a word read can do (R62). -/
theorem withMemRead_cases (a : Int) (s : State) (k : Word → Out) :
    (InSpace s a ∧ withMemRead a s k = k (s.mem.readWord a.toNat)) ∨
      (¬ InSpace s a ∧ withMemRead a s k = .next (faultedAt (.memoryOutOfBounds a) s)) :=
  (Classical.em (InSpace s a)).imp (fun h => ⟨h, withMemRead_of_inSpace h⟩) fun h => ⟨h, withMemRead_of_outside h⟩

theorem withMemWrite_of_inSpace {a : Int} {v : Word} {s : State} {k : State → Out} (h : InSpace s a) :
    withMemWrite a v s k = k (s.setMem (s.mem.writeWord a.toNat v)) := by
  rw [withMemWrite, if_pos (inBounds_eq_true.mpr h)]

theorem withMemWrite_of_outside {a : Int} {v : Word} {s : State} {k : State → Out} (h : ¬ InSpace s a) :
    withMemWrite a v s k = .next (faultedAt (.memoryOutOfBounds a) s) := by
  rw [withMemWrite, if_neg (fun e => h (inBounds_eq_true.mp e)), takeFault_eq]

/-- All that a word write can do (R63). -/
theorem withMemWrite_cases (a : Int) (v : Word) (s : State) (k : State → Out) :
    (InSpace s a ∧ withMemWrite a v s k = k (s.setMem (s.mem.writeWord a.toNat v))) ∨
      (¬ InSpace s a ∧ withMemWrite a v s k = .next (faultedAt (.memoryOutOfBounds a) s)) :=
  (Classical.em (InSpace s a)).imp (fun h => ⟨h, withMemWrite_of_inSpace h⟩) fun h => ⟨h, withMemWrite_of_outside h⟩

theorem withPush_of_inSpace {v : Word} {s : State} {k : State → Out} (h : InSpace s (pushAddr s.params s.sp)) :
    withPush v s k = k ((s.setMem (s.mem.writeWord (pushAddr s.params s.sp).toNat v)).setSp (s.params.word (pushAddr s.params s.sp))) := by
  rw [withPush, withMemWrite_of_inSpace h]

theorem withPush_of_outside {v : Word} {s : State} {k : State → Out} (h : ¬ InSpace s (pushAddr s.params s.sp)) :
    withPush v s k = .next (faultedAt (.memoryOutOfBounds (pushAddr s.params s.sp)) s) := by
  rw [withPush, withMemWrite_of_outside h]

/-- All that a push can do (R230, R232). -/
theorem withPush_cases (v : Word) (s : State) (k : State → Out) :
    (InSpace s (pushAddr s.params s.sp) ∧
        withPush v s k = k ((s.setMem (s.mem.writeWord (pushAddr s.params s.sp).toNat v)).setSp (s.params.word (pushAddr s.params s.sp)))) ∨
      (¬ InSpace s (pushAddr s.params s.sp) ∧ withPush v s k = .next (faultedAt (.memoryOutOfBounds (pushAddr s.params s.sp)) s)) :=
  (Classical.em _).imp (fun h => ⟨h, withPush_of_inSpace h⟩) fun h => ⟨h, withPush_of_outside h⟩

/-- A word written at an address that the bounds check passes stands there byte by byte (R63). -/
theorem holdsWord_writeWord (s : State) (a : Nat) (v : Word) : HoldsWord (s.setMem (s.mem.writeWord a v)) a v := by
  simp [HoldsWord, Memory.read_writeWord, wordByte]

/-- Outside its bytes a word write leaves memory alone (R63). -/
theorem sameBytesOutside_writeWord (s : State) {a : Int} (h : 0 ≤ a) (v : Word) :
    SameBytesOutside a s (s.setMem (s.mem.writeWord a.toNat v)) := by
  intro b hb
  exact Memory.read_writeWord_outside _ _ (by omega)

/-- What a word read returns stands at its address (R62). -/
theorem holdsWord_readWord (s : State) (a : Nat) : HoldsWord s a (s.mem.readWord a) := by
  unfold HoldsWord Memory.readWord
  generalize s.mem.read a = b0
  generalize s.mem.read (a + 1) = b1
  generalize s.mem.read (a + 2) = b2
  generalize s.mem.read (a + 3) = b3
  refine ⟨?_, ?_, ?_, ?_⟩ <;> apply BitVec.eq_of_getLsbD_eq <;> intro k hk <;>
    simp only [BitVec.getLsbD_extractLsb', BitVec.getLsbD_append] <;> interval_cases k <;> simp

/-- A push that passes the bounds check leaves the stack pointer at the address it stored to. -/
theorem word_pushAddr_toNat {p : LaunchParams} (hp : p.wf) {sp : Word} (hsp : sp.toNat < 2 ^ p.xlen)
    (h : 0 ≤ pushAddr p sp) : ((p.word (pushAddr p sp)).toNat : Int) = pushAddr p sp := by
  rw [LaunchParams.word_toNat hp]
  refine Int.emod_eq_of_lt h ?_
  have h1 := LaunchParams.signed_of_lt hsp
  unfold pushAddr at *
  split at h1 <;> omega

theorem signed_word_pushAddr {p : LaunchParams} (hp : p.wf) {sp : Word} (hsp : sp.toNat < 2 ^ p.xlen)
    (h : 0 ≤ pushAddr p sp) : p.signed (p.word (pushAddr p sp)) = pushAddr p sp := by
  have h1 := word_pushAddr_toNat hp hsp h
  rw [LaunchParams.signed_of_lt (p.word_lt _)]
  have h2 := LaunchParams.signed_of_lt hsp
  unfold pushAddr at *
  split at h2 <;> split <;> omega

/-- Where a pop passes the bounds check, its address is the unsigned stack pointer. -/
theorem popAddr_toNat {p : LaunchParams} {sp : Word} (hsp : sp.toNat < 2 ^ p.xlen) (h : 0 ≤ popAddr p sp) :
    (popAddr p sp).toNat = sp.toNat := by
  have h1 := LaunchParams.signed_of_lt hsp
  unfold popAddr at *
  split at h1 <;> omega

/-! ### Whole effects -/

theorem sameRegsBut_setReg (s : State) (i : RegIdx) (v : Word) : SameRegsBut [i] s (s.setReg i v) :=
  ⟨by simp, fun _ hj => State.setReg_reg_ne s (by simpa using hj) v⟩

theorem writesReg_setReg_advance {s : State} {i : RegIdx} (h : i < s.regs.length) (v : Word) :
    WritesReg s i v (s.setReg i v).advance :=
  ⟨State.setReg_reg_self h v, sameRegsBut_setReg s i v, State.advance_pc _, fun _ => rfl, rfl, ⟨rfl, rfl⟩, rfl, rfl, rfl⟩

theorem goesTo_setPc (s : State) (p : Word) : GoesTo s p (s.setPc p) :=
  ⟨rfl, ⟨rfl, fun _ _ => rfl⟩, fun _ => rfl, rfl, ⟨rfl, rfl⟩, rfl, rfl, rfl⟩

/-! ### Flags (R200) -/

theorem flagAt_getLsbD (b : Bool) (n k : Nat) (hn : n < 32) : (flagAt b n).getLsbD k = (decide (k = n) && b) := by
  by_cases hk : k = n
  · subst hk
    cases b <;> simp [flagAt, hn]
  · by_cases hlt : k < n
    · simp [flagAt, hk, hlt]
    · have : k - n ≠ 0 := by omega
      cases b <;> simp [flagAt, hk, hlt, this]

/-- The flags word bit by bit (R37, R200). -/
theorem cmpFlags_getLsbD {p : LaunchParams} (hp : p.wf) (b a : Word) (k : Nat) :
    (cmpFlags p b a).getLsbD k =
      ((decide (k = p.ofBit) &&
          ((decide (p.signed b < 0) != decide (p.signed a < 0)) &&
            (decide (p.signed (b - a) < 0) != decide (p.signed b < 0)))) ||
        (decide (k = p.sfBit) && decide (p.signed (b - a) < 0)) || (decide (k = p.zfBit) && decide (p.fit (b - a) = 0)) ||
        (decide (k = p.cfBit) && decide (b.toNat < a.toNat))) := by
  have hx := hp.1.1
  obtain ⟨⟨h1, h2, h3, h4⟩, -⟩ := LaunchParams.wf_flagBits hp
  simp only [cmpFlags, BitVec.getLsbD_or, flagAt_getLsbD _ _ _ (Nat.lt_of_lt_of_le h1 hx),
    flagAt_getLsbD _ _ _ (Nat.lt_of_lt_of_le h2 hx), flagAt_getLsbD _ _ _ (Nat.lt_of_lt_of_le h3 hx),
    flagAt_getLsbD _ _ _ (Nat.lt_of_lt_of_le h4 hx), aluSub_eq, LaunchParams.signed_fit]

/-- Each flag of a compare by itself (R200). -/
theorem flags_cmpFlags {p : LaunchParams} (hp : p.wf) (b a : Word) :
    cf p (cmpFlags p b a) = decide (b.toNat < a.toNat) ∧ zf p (cmpFlags p b a) = decide (p.fit (b - a) = 0) ∧
      sf p (cmpFlags p b a) = decide (p.signed (b - a) < 0) ∧
      ovf p (cmpFlags p b a) =
        ((decide (p.signed b < 0) != decide (p.signed a < 0)) &&
          (decide (p.signed (b - a) < 0) != decide (p.signed b < 0))) := by
  have hd := (LaunchParams.wf_flagBits hp).2
  simp only [List.nodup_cons, List.mem_cons, List.not_mem_nil, or_false, not_or] at hd
  obtain ⟨⟨h1, h2, h3⟩, ⟨h4, h5⟩, h6, -⟩ := hd
  refine ⟨?_, ?_, ?_, ?_⟩
  · rw [cf, cmpFlags_getLsbD hp]; simp [h1, h2, h3]
  · rw [zf, cmpFlags_getLsbD hp]; simp [Ne.symm h1, h4, h5]
  · rw [sf, cmpFlags_getLsbD hp]; simp [Ne.symm h2, Ne.symm h4, h6]
  · rw [ovf, cmpFlags_getLsbD hp]; simp [Ne.symm h3, Ne.symm h5, Ne.symm h6]

/-- The flags register holds every bit that a compare sets. -/
theorem fit_cmpFlags {p : LaunchParams} (hp : p.wf) (b a : Word) : p.fit (cmpFlags p b a) = cmpFlags p b a := by
  apply BitVec.eq_of_getLsbD_eq
  intro k _
  rw [LaunchParams.fit, lowBits_getLsbD]
  by_cases hk : k < p.xlen
  · simp [hk]
  · obtain ⟨⟨h1, h2, h3, h4⟩, -⟩ := LaunchParams.wf_flagBits hp
    rw [cmpFlags_getLsbD hp, decide_eq_false hk, decide_eq_false (by omega : k ≠ p.ofBit),
      decide_eq_false (by omega : k ≠ p.sfBit), decide_eq_false (by omega : k ≠ p.zfBit),
      decide_eq_false (by omega : k ≠ p.cfBit)]
    rfl

theorem onlyFlagBits_cmpFlags {p : LaunchParams} (hp : p.wf) (b a : Word) : OnlyFlagBits p (cmpFlags p b a) := by
  intro k hk
  rw [cmpFlags_getLsbD hp] at hk
  by_contra hn
  simp only [not_or] at hn
  simp [hn] at hk

/-- A difference of two `XLEN`-bit values is 0 exactly where they are equal (R200). -/
theorem fit_sub_eq_zero {p : LaunchParams} (h : p.wf) {a b : Word} (ha : a.toNat < 2 ^ p.xlen) (hb : b.toNat < 2 ^ p.xlen) :
    p.fit (b - a) = 0 ↔ b = a := by
  have h1 := fit_sub_toNat h ha hb
  refine ⟨fun e => BitVec.eq_of_toNat_eq ?_, fun e => ?_⟩
  · rw [e] at h1
    simp only [BitVec.ofNat_eq_ofNat, BitVec.toNat_ofNat] at h1
    split at h1 <;> omega
  · rw [e, BitVec.sub_self]
    exact p.fit_zero

theorem onlyFlagBits_zero (p : LaunchParams) : OnlyFlagBits p 0 := by
  intro k hk
  simp at hk

/-! ### Channels (R45, R252) -/

/-- All that `receive` can find. -/
theorem receive_cases (s : State) :
    (∃ v, s.inChan.values[s.inPos]? = some v ∧ s.receive = .value v) ∨
      (s.inChan.values.length ≤ s.inPos ∧ s.inChan.tail = .nothingYet ∧ s.receive = .nothingYet) ∨
      (s.inChan.values.length ≤ s.inPos ∧ s.inChan.tail = .endOfInput ∧ s.receive = .endOfInput) ∨
      (s.inChan.values.length ≤ s.inPos ∧ s.inChan.tail = .notAnInteger ∧ s.receive = .notAnInteger) := by
  unfold State.receive
  cases h : s.inChan.values[s.inPos]? with
  | some v => exact .inl ⟨v, rfl, rfl⟩
  | none =>
    have hl := List.getElem?_eq_none_iff.mp h
    cases ht : s.inChan.tail <;> simp [hl]

end Sys2Proof.Machine
end

