-- ==== Sys2Proof/Laws/Exec.lean ====
section
/-! SUPPORT. Everything that `exec` can answer, said once: `exec_effect`. A whole-machine claim is a case analysis of `Effect`
and unfolds no meaning. -/

namespace Sys2Proof.Machine

/-- The field that holds the destination register of an instruction that writes one and touches neither r6 implicitly
nor a channel (the register-writing rows of R138). -/
def destField : Instr → Option RegField
  | .subl ra _ => some ra
  | .addlRegReg _ rb => some rb
  | .addlImmReg ra _ => some ra
  | .imull _ rb => some rb
  | .shrl ra => some ra
  | .movlRegReg _ rb => some rb
  | .movlDerefReg _ rb _ => some rb
  | .movlRegDeref _ _ _ => none
  | .movlImmReg ra _ => some ra
  | .cmpl _ _ => none
  | .je _ => none
  | .jl _ => none
  | .jle _ => none
  | .jge _ => none
  | .jbe _ => none
  | .jmp _ => none
  | .call _ => none
  | .ret => none
  | .pushl _ => none
  | .popl _ => none
  | .printr _ => none
  | .readr _ => none

/-- The outcomes of one instruction, each under what holds where it happens. -/
inductive Effect (s : State) : Instr → Out → Prop where
  /-- A used field is illegal (R136). -/
  | illegalField {i : Instr} (f : RegField) (w : FieldName) (hf : IllegalField s f) (hu : usedField i w = some f) :
      Effect s i (.next (faultedAt (.illegalRegister f w) s))
  /-- A data access is out of bounds (R62, R63). -/
  | outOfBounds {i : Instr} (a : Int) (ha : ¬ InSpace s a) (hm : accessesMemory i = true) :
      Effect s i (.next (faultedAt (.memoryOutOfBounds a) s))
  /-- `readr` at the end of the input (R252). -/
  | inputEnded (ra : RegField) (hl : s.inChan.values.length ≤ s.inPos) (ht : s.inChan.tail ≠ .nothingYet) :
      Effect s (.readr ra) (.next (faultedAt .inputExhausted s))
  /-- `ret` on the empty stack (R231). -/
  | emptyStack (h : s.sp = s.params.word s.params.spReset) : Effect s .ret (.next { s with status := .halted .returnFromEmptyStack })
  /-- `readr` with nothing supplied yet (R252). -/
  | waits (ra : RegField) (k : RegIdx) (hk : Names s ra k) (hl : s.inChan.values.length ≤ s.inPos)
      (ht : s.inChan.tail = .nothingYet) : Effect s (.readr ra) (.fault .waitingForInput)
  /-- One register written, pc + 4. -/
  | writesReg {i : Instr} (f : RegField) (j : RegIdx) (v : Word) (hd : destField i = some f) (hj : Names s f j) :
      Effect s i (.next (s.setReg j v).advance)
  /-- `cmpl` (R201). -/
  | setsFlags (ra rb : RegField) (i j : RegIdx) (hi : Names s ra i) (hj : Names s rb j) :
      Effect s (.cmpl ra rb) (.next (s.setFlags (cmpFlags s.params (s.reg j) (s.reg i))).advance)
  /-- A conditional jump (R202). -/
  | branches {i : Instr} (p : Word) (hi : isConditionalJump i = true) : Effect s i (.next (s.setPc p))
  /-- `jmp` (R208). -/
  | jumps (imm : Word) : Effect s (.jmp imm) (.next (s.setPc (s.params.pcFit (s.pc + imm))))
  /-- `movl_reg_deref` (R182). -/
  | stores (ra rb : RegField) (imm : Word) (i j : RegIdx) (hi : Names s ra i) (hj : Names s rb j)
      (ha : InSpace s (effAddr s.params (s.reg j) imm)) :
      Effect s (.movlRegDeref ra rb imm)
        (.next (s.setMem (s.mem.writeWord (effAddr s.params (s.reg j) imm).toNat (s.reg i))).advance)
  /-- `call` (R230). -/
  | calls (imm : Word) (ha : InSpace s (pushAddr s.params s.sp)) :
      Effect s (.call imm)
        (.next (((s.setMem (s.mem.writeWord (pushAddr s.params s.sp).toNat (nextPc s))).setSp (s.params.word (pushAddr s.params s.sp))).setPc
          (s.params.pcFit (s.pc + imm))))
  /-- `ret` off a non-empty stack (R231). -/
  | returns (hn : s.sp ≠ s.params.word s.params.spReset) (ha : InSpace s (popAddr s.params s.sp)) :
      Effect s .ret (.next ((s.setSp (s.sp + 4)).setPc (s.mem.readWord (popAddr s.params s.sp).toNat)))
  /-- `pushl` (R232). -/
  | pushes (ra : RegField) (i : RegIdx) (hi : Names s ra i) (ha : InSpace s (pushAddr s.params s.sp)) :
      Effect s (.pushl ra)
        (.next ((s.setMem (s.mem.writeWord (pushAddr s.params s.sp).toNat (s.reg i))).setSp (s.params.word (pushAddr s.params s.sp))).advance)
  /-- `popl` (R233). -/
  | pops (ra : RegField) (i : RegIdx) (hi : Names s ra i) (ha : InSpace s (popAddr s.params s.sp)) (s1 : State)
      (h1 : s1 = s.setReg i (s.mem.readWord (popAddr s.params s.sp).toNat)) :
      Effect s (.popl ra) (.next (s1.setSp (s1.sp + 4)).advance)
  /-- `printr` (R250). -/
  | prints (ra : RegField) (i : RegIdx) (hi : Names s ra i) : Effect s (.printr ra) (.next (s.emit (s.reg i)).advance)
  /-- `readr` with an item (R252). -/
  | reads (ra : RegField) (i : RegIdx) (v : Word) (hi : Names s ra i) (hv : s.inChan.values[s.inPos]? = some v) :
      Effect s (.readr ra) (.next (s.consume.setReg i v).advance)

/-- The end of the input faults under the one value of its policy (R252). -/
theorem inputEnded_eq (s : State) : inputEnded s = .next (faultedAt .inputExhausted s) := by
  rw [inputEnded, takeFault_eq]

/-- An instruction over one field. -/
theorem effect_withField {s : State} {i : Instr} {w : FieldName} {f : RegField} {k : RegIdx → Out}
    (hu : usedField i w = some f) (h : ∀ j, Names s f j → Effect s i (k j)) : Effect s i (withField w f s k) := by
  rcases withField_cases w f s k with ⟨j, hj, e⟩ | ⟨hf, e⟩
  · exact e ▸ h j hj
  · exact e ▸ .illegalField f w hf hu

/-- An instruction over two fields. -/
theorem effect_withFields {s : State} {i : Instr} {ra rb : RegField} {k : RegIdx → RegIdx → Out}
    (ha : usedField i .ra = some ra) (hb : usedField i .rb = some rb)
    (h : ∀ j l, Names s ra j → Names s rb l → Effect s i (k j l)) : Effect s i (withFields ra rb s k) :=
  effect_withField ha fun j hj => effect_withField hb fun l hl => h j l hj hl

/-- Everything that `exec` can answer. -/
theorem exec_effect (i : Instr) (s : State) : Effect s i (exec i s) := by
  cases i with
  | subl ra imm => exact effect_withField rfl fun j hj => .writesReg ra j _ rfl hj
  | addlRegReg ra rb => exact effect_withFields rfl rfl fun _ l _ hl => .writesReg rb l _ rfl hl
  | addlImmReg ra imm => exact effect_withField rfl fun j hj => .writesReg ra j _ rfl hj
  | imull ra rb => exact effect_withFields rfl rfl fun _ l _ hl => .writesReg rb l _ rfl hl
  | shrl ra => exact effect_withField rfl fun j hj => .writesReg ra j _ rfl hj
  | movlRegReg ra rb => exact effect_withFields rfl rfl fun _ l _ hl => .writesReg rb l _ rfl hl
  | movlDerefReg ra rb imm =>
    refine effect_withFields rfl rfl fun j l _ hl => ?_
    rcases withMemRead_cases (effAddr s.params (s.reg j) imm) s _ with ⟨_, e⟩ | ⟨ha, e⟩
    · exact e ▸ .writesReg rb l _ rfl hl
    · exact e ▸ .outOfBounds _ ha rfl
  | movlRegDeref ra rb imm =>
    refine effect_withFields rfl rfl fun j l hj hl => ?_
    rcases withMemWrite_cases (effAddr s.params (s.reg l) imm) (s.reg j) s _ with ⟨ha, e⟩ | ⟨ha, e⟩
    · exact e ▸ .stores ra rb imm j l hj hl ha
    · exact e ▸ .outOfBounds _ ha rfl
  | movlImmReg ra imm => exact effect_withField rfl fun j hj => .writesReg ra j _ rfl hj
  | cmpl ra rb => exact effect_withFields rfl rfl fun j l hj hl => .setsFlags ra rb j l hj hl
  | je imm => exact .branches _ rfl
  | jl imm => exact .branches _ rfl
  | jle imm => exact .branches _ rfl
  | jge imm => exact .branches _ rfl
  | jbe imm => exact .branches _ rfl
  | jmp imm => exact .jumps imm
  | call imm =>
    show Effect s (.call imm) (execCall imm s)
    unfold execCall
    rcases withPush_cases (fallthru s.params s.pc) s (fun s1 => .next (s1.setPc (target s.params s.pc imm))) with ⟨ha, e⟩ | ⟨ha, e⟩
    · exact e ▸ .calls imm ha
    · exact e ▸ .outOfBounds _ ha rfl
  | ret =>
    show Effect s .ret (execRet s)
    unfold execRet
    split
    · next h => exact .emptyStack h
    · next h =>
      rcases withMemRead_cases (popAddr s.params s.sp) s _ with ⟨ha, e⟩ | ⟨ha, e⟩
      · exact e ▸ .returns h ha
      · exact e ▸ .outOfBounds _ ha rfl
  | pushl ra =>
    refine effect_withField rfl fun j hj => ?_
    rcases withPush_cases (s.reg j) s _ with ⟨ha, e⟩ | ⟨ha, e⟩
    · exact e ▸ .pushes ra j hj ha
    · exact e ▸ .outOfBounds _ ha rfl
  | popl ra =>
    refine effect_withField rfl fun j hj => ?_
    rcases withMemRead_cases (popAddr s.params s.sp) s _ with ⟨ha, e⟩ | ⟨ha, e⟩
    · exact e ▸ .pops ra j hj ha _ rfl
    · exact e ▸ .outOfBounds _ ha rfl
  | printr ra => exact effect_withField rfl fun j hj => .prints ra j hj
  | readr ra =>
    refine effect_withField rfl fun j hj => ?_
    rcases receive_cases s with ⟨v, hv, e⟩ | ⟨hl, ht, e⟩ | ⟨hl, ht, e⟩ | ⟨hl, ht, e⟩ <;> rw [e]
    · exact .reads ra j v hj hv
    · exact .waits ra j hj hl ht
    · exact inputEnded_eq s ▸ .inputEnded ra hl (by simp [ht])
    · exact inputEnded_eq s ▸ .inputEnded ra hl (by simp [ht])

end Sys2Proof.Machine
end

