-- ==== Sys2Proof/Laws/PerInstr.lean ====
section
/-! SUPPORT. Statements about every instruction, one lemma per constructor of `Instr`: the encoder writes the opcode of the
instruction's row in the opcode map (spec/30_encoding.md R97) and a 0 in bit 16 (R92). -/

namespace Sys2Proof.Laws.OpcodeField

/-- The opcode of an instruction as the opcode map of R97 prints it. -/
def mapOpcode : Instr → Nat
  | .subl _ _ => 0
  | .addlRegReg _ _ => 1
  | .addlImmReg _ _ => 2
  | .imull _ _ => 3
  | .shrl _ => 4
  | .movlRegReg _ _ => 5
  | .movlDerefReg _ _ _ => 6
  | .movlRegDeref _ _ _ => 7
  | .movlImmReg _ _ => 8
  | .cmpl _ _ => 9
  | .je _ => 10
  | .jl _ => 11
  | .jle _ => 12
  | .jge _ => 13
  | .jbe _ => 14
  | .jmp _ => 15
  | .call _ => 16
  | .ret => 17
  | .pushl _ => 18
  | .popl _ => 19
  | .printr _ => 20
  | .readr _ => 21

/-- Under any well-formed parameters, the encoded word holds the opcode of the instruction's row in the opcode
field; under the default ones, that is the map's number in bits 31:27, and bit 16 is 0. -/
def Statement (i : Instr) : Prop :=
  (∀ p : LaunchParams, p.wf → bitField p.opcodeHi p.opcodeLo (encode p i) = opcodeOf p (mapOpcode i)) ∧
    ((encode {} i).extractLsb' 27 5).toNat = mapOpcode i ∧ (encode {} i).getLsbD 16 = false

theorem of_fields {i : Instr} (h : ∀ p : LaunchParams, (i.fields p).opcode = opcodeOf p (mapOpcode i)) : Statement i := by
  have hk : mapOpcode i < 22 := by cases i <;> simp [mapOpcode]
  have key : ∀ p : LaunchParams, p.wf → bitField p.opcodeHi p.opcodeLo (encode p i) = opcodeOf p (mapOpcode i) := by
    intro p hp
    have e := decode_encodeFields_opcode (LaunchParams.wf_fields hp) (i.fields p)
    rw [h p, Nat.mod_eq_of_lt (opcodeOf_lt (LaunchParams.wf_opcodes hp) hk)] at e
    exact e
  refine ⟨key, ?_, ?_⟩
  · have e := key {} defaultParams_wf
    rw [opcodeOf_default hk] at e
    exact (bitField_eq_extract 27 4 _).symm.trans e
  · rw [encode, encodeFields_getLsbD (by decide)]
    simp

theorem subl (ra : RegField) (imm : Word) : Statement (.subl ra imm) := of_fields fun _ => rfl
theorem addlRegReg (ra rb : RegField) : Statement (.addlRegReg ra rb) := of_fields fun _ => rfl
theorem addlImmReg (ra : RegField) (imm : Word) : Statement (.addlImmReg ra imm) := of_fields fun _ => rfl
theorem imull (ra rb : RegField) : Statement (.imull ra rb) := of_fields fun _ => rfl
theorem shrl (ra : RegField) : Statement (.shrl ra) := of_fields fun _ => rfl
theorem movlRegReg (ra rb : RegField) : Statement (.movlRegReg ra rb) := of_fields fun _ => rfl
theorem movlDerefReg (ra rb : RegField) (imm : Word) : Statement (.movlDerefReg ra rb imm) := of_fields fun _ => rfl
theorem movlRegDeref (ra rb : RegField) (imm : Word) : Statement (.movlRegDeref ra rb imm) := of_fields fun _ => rfl
theorem movlImmReg (ra : RegField) (imm : Word) : Statement (.movlImmReg ra imm) := of_fields fun _ => rfl
theorem cmpl (ra rb : RegField) : Statement (.cmpl ra rb) := of_fields fun _ => rfl
theorem je (imm : Word) : Statement (.je imm) := of_fields fun _ => rfl
theorem jl (imm : Word) : Statement (.jl imm) := of_fields fun _ => rfl
theorem jle (imm : Word) : Statement (.jle imm) := of_fields fun _ => rfl
theorem jge (imm : Word) : Statement (.jge imm) := of_fields fun _ => rfl
theorem jbe (imm : Word) : Statement (.jbe imm) := of_fields fun _ => rfl
theorem jmp (imm : Word) : Statement (.jmp imm) := of_fields fun _ => rfl
theorem call (imm : Word) : Statement (.call imm) := of_fields fun _ => rfl
theorem ret : Statement .ret := of_fields fun _ => rfl
theorem pushl (ra : RegField) : Statement (.pushl ra) := of_fields fun _ => rfl
theorem popl (ra : RegField) : Statement (.popl ra) := of_fields fun _ => rfl
theorem printr (ra : RegField) : Statement (.printr ra) := of_fields fun _ => rfl
theorem readr (ra : RegField) : Statement (.readr ra) := of_fields fun _ => rfl

end Sys2Proof.Laws.OpcodeField
end

