-- ==== Sys2Proof/Laws/Step.lean ====
section
/-! SUPPORT. What one step can do (spec/40_execution_cycle.md R130 to R134): the cases of the cycle, each once. -/

namespace Sys2Proof.Machine

theorem step_running {s : State} (h : s.status = .running) : step s = runCycle s := by
  simp only [step, cycle, h]

theorem step_not_running {s : State} (h : s.status ≠ .running) : step s = .fault .runEnded := by
  unfold step cycle
  split
  · next e => exact absurd e h
  · rfl
  · rfl

/-- A step that answers a next state starts from a running state (R134). -/
theorem running_of_step {s t : State} (h : step s = .next t) : s.status = .running := by
  by_contra hn
  rw [step_not_running hn] at h
  cases h

theorem fetch_endOfProgram {s : State} (h : s.params.ilen * s.prog.length ≤ s.pc.toNat) : s.fetch = .endOfProgram := by
  rw [State.fetch, if_pos h]

theorem fetch_misaligned {s : State} (h : s.pc.toNat < s.params.ilen * s.prog.length) (hp : s.params.pcMisalign = .fault)
    (hm : s.pc.toNat % s.params.ilen ≠ 0) : s.fetch = .misaligned := by
  rw [State.fetch, if_neg (Nat.not_le.mpr h), if_pos ⟨hp, hm⟩]

theorem fetch_word {s : State} (h : s.pc.toNat < s.params.ilen * s.prog.length)
    (hm : s.params.pcMisalign = .truncate ∨ s.pc.toNat % s.params.ilen = 0) :
    s.fetch = .word (s.prog.getD (s.pc.toNat / s.params.ilen) 0) := by
  rw [State.fetch, if_neg (Nat.not_le.mpr h), if_neg]
  rintro ⟨h1, h2⟩
  rcases hm with hm | hm
  · simp [hm] at h1
  · exact h2 hm

/-- What `FetchesWord` says is what the fetch finds. -/
theorem fetch_of_fetchesWord {s : State} {w : Word} (h : FetchesWord s w) : s.fetch = .word w := by
  obtain ⟨_, h1, h2, h3⟩ := h
  rw [fetch_word h1 h3, List.getD_eq_getElem?_getD, h2]
  rfl

theorem fetchesWord_of_fetch {s : State} {w : Word} (hr : s.status = .running)
    (hl : s.pc.toNat < s.params.ilen * s.prog.length) (h : s.fetch = .word w) : FetchesWord s w := by
  unfold State.fetch at h
  rw [if_neg (Nat.not_le.mpr hl)] at h
  split at h
  · cases h
  · next hn =>
    refine ⟨hr, hl, ?_, ?_⟩
    · injection h with h
      rw [List.getD_eq_getElem?_getD] at h
      have hk : s.pc.toNat / s.params.ilen < s.prog.length := Nat.div_lt_of_lt_mul hl
      rw [List.getElem?_eq_getElem hk] at h ⊢
      exact congrArg some h
    · cases hp : s.params.pcMisalign with
      | truncate => exact .inl rfl
      | fault => right; simpa [hp] using hn

/-- A fetched word that decodes is run. -/
theorem step_of_decodes {s : State} {w : Word} {i : Instr} (h : FetchesWord s w) (hd : decodeWord s.params w = some i) :
    step s = exec i s := by
  rw [step_running h.1, runCycle, fetch_of_fetchesWord h]
  simp only [hd]

/-- A fetched word that names no operation faults. -/
theorem step_of_illegal {s : State} {w : Word} (h : FetchesWord s w) (hd : decodeWord s.params w = none) :
    step s = .next (faultedAt (.illegalOpcode (decode s.params w).opcode) s) := by
  rw [step_running h.1, runCycle, fetch_of_fetchesWord h]
  simp only [hd, takeFault_eq]

/-- What a row of the opcode map decodes to, under the default and under any well-formed parameters. -/
theorem opcodeDecodesTo_of {k : Nat} {f : RegField → RegField → Word → Instr} (hk : k < 22)
    (h : ∀ (p : LaunchParams) (d : Decoded), opcodeRow p d.opcode = some k → d.toInstr p = some (f d.ra d.rb d.imm)) :
    OpcodeDecodesTo k f := by
  have key : ∀ (p : LaunchParams) (w : Word), p.wf → p.opcodeValues[k]? = some (bitField p.opcodeHi p.opcodeLo w) →
      decodeWord p w =
        some (f (bitField p.raHi p.raLo w) (bitField p.rbHi p.rbLo w)
          (sext32 (fieldWidth p.immHi p.immLo) (bitField p.immHi p.immLo w))) :=
    fun p w hp hw => h p (decode p w) (opcodeRow_of_getElem (LaunchParams.wf_opcodes hp).2.1 hw)
  refine ⟨fun w hw => ?_, key⟩
  have e1 : bitField 31 27 w = k := (bitField_eq_extract 27 4 w).trans hw
  refine (key {} w defaultParams_wf ?_).trans ?_
  · show _ = some (bitField 31 27 w)
    rw [e1]
    interval_cases k <;> rfl
  · show some (f (bitField 26 22 w) (bitField 21 17 w) (sext32 16 (bitField 15 0 w))) = _
    rw [sext32_default, bitField_eq_extract 22 4 w, bitField_eq_extract 17 4 w]

/-- All that one step of a running core can do (R274 items 2 to 7). -/
theorem step_cases {s : State} (h : s.status = .running) :
    (s.params.ilen * s.prog.length ≤ s.pc.toNat ∧ step s = .next { s with status := .halted .endOfProgram }) ∨
      (s.pc.toNat < s.params.ilen * s.prog.length ∧ s.params.pcMisalign = .fault ∧ s.pc.toNat % s.params.ilen ≠ 0 ∧
        step s = .next (faultedAt .misalignedPC s)) ∨
      (∃ w, FetchesWord s w ∧ decodeWord s.params w = none ∧
        step s = .next (faultedAt (.illegalOpcode (decode s.params w).opcode) s)) ∨
      (∃ i, FetchesInstr s i ∧ step s = exec i s) := by
  rcases Nat.lt_or_ge s.pc.toNat (s.params.ilen * s.prog.length) with hl | hl
  · by_cases hm : s.params.pcMisalign = .fault ∧ s.pc.toNat % s.params.ilen ≠ 0
    · refine .inr (.inl ⟨hl, hm.1, hm.2, ?_⟩)
      rw [step_running h, runCycle, fetch_misaligned hl hm.1 hm.2]
      rfl
    · have hf : s.fetch = .word (s.prog.getD (s.pc.toNat / s.params.ilen) 0) := by
        refine fetch_word hl ?_
        cases hp : s.params.pcMisalign with
        | truncate => exact .inl rfl
        | fault => exact .inr (by simpa [hp] using hm)
      have hw := fetchesWord_of_fetch h hl hf
      cases hd : decodeWord s.params (s.prog.getD (s.pc.toNat / s.params.ilen) 0) with
      | none => exact .inr (.inr (.inl ⟨_, hw, hd, step_of_illegal hw hd⟩))
      | some i => exact .inr (.inr (.inr ⟨i, ⟨_, hw, hd⟩, step_of_decodes hw hd⟩))
  · refine .inl ⟨hl, ?_⟩
    rw [step_running h, runCycle, fetch_endOfProgram hl]
    rfl

end Sys2Proof.Machine
end

