-- ==== Sys2Proof/Machine/Assembly.lean ====
section
/-! DEFINITION. The assembly notation of the spec (spec/30_encoding.md R103): a mnemonic, then the used fields in encoding
order, separated by commas. Notation only; no meaning depends on it. -/

namespace Sys2Proof.Machine

/-- A register field as text, `r0` to `r31` (R103). -/
def regText (f : RegField) : String := "r" ++ toString f

/-- A mnemonic with its operands (R103). -/
def asmLine (mnemonic : String) (operands : List String) : String :=
  match operands with
  | [] => mnemonic
  | _ :: _ => mnemonic ++ " " ++ String.intercalate ", " operands

/-- An instruction in the notation of R103, its immediate as a signed decimal. -/
def asmText : Instr → String
  | .subl ra imm => asmLine "subl" [regText ra, toString imm.toInt]
  | .addlRegReg ra rb => asmLine "addl_reg_reg" [regText ra, regText rb]
  | .addlImmReg ra imm => asmLine "addl_imm_reg" [regText ra, toString imm.toInt]
  | .imull ra rb => asmLine "imull" [regText ra, regText rb]
  | .shrl ra => asmLine "shrl" [regText ra]
  | .movlRegReg ra rb => asmLine "movl_reg_reg" [regText ra, regText rb]
  | .movlDerefReg ra rb imm => asmLine "movl_deref_reg" [regText ra, regText rb, toString imm.toInt]
  | .movlRegDeref ra rb imm => asmLine "movl_reg_deref" [regText ra, regText rb, toString imm.toInt]
  | .movlImmReg ra imm => asmLine "movl_imm_reg" [regText ra, toString imm.toInt]
  | .cmpl ra rb => asmLine "cmpl" [regText ra, regText rb]
  | .je imm => asmLine "je" [toString imm.toInt]
  | .jl imm => asmLine "jl" [toString imm.toInt]
  | .jle imm => asmLine "jle" [toString imm.toInt]
  | .jge imm => asmLine "jge" [toString imm.toInt]
  | .jbe imm => asmLine "jbe" [toString imm.toInt]
  | .jmp imm => asmLine "jmp" [toString imm.toInt]
  | .call imm => asmLine "call" [toString imm.toInt]
  | .ret => asmLine "ret" []
  | .pushl ra => asmLine "pushl" [regText ra]
  | .popl ra => asmLine "popl" [regText ra]
  | .printr ra => asmLine "printr" [regText ra]
  | .readr ra => asmLine "readr" [regText ra]

end Sys2Proof.Machine
end

