-- ==== Sys2Proof/Tests/Slice0.lean ====
section
/-! SUPPORT. The model's own tests. Every expected value is printed in the spec (spec/95_test_vectors.md, and the examples of
files 30 to 45) or worked out by hand from the rule that the test names. The `witness_` theorems show, for each
statement with hypotheses, states and operands that meet them. -/

namespace Sys2Proof.Machine.Tests

/-! ### Helpers -/

/-- The next state of an outcome. -/
def after : Out → Option State
  | .next t => some t
  | .fault _ => none
  | .refused _ => none

/-- The reset state with some registers set. -/
def withRegs (rs : List (RegIdx × Word)) : State := rs.foldl (fun s r => s.setReg r.1 r.2) State.reset

/-- The reset state with one register set. -/
def with1 (i : RegIdx) (v : Word) : State := withRegs [(i, v)]

/-- A register after an instruction. -/
def regAfter (i : Instr) (s : State) (j : RegIdx) : Option Word := (after (exec i s)).map (·.reg j)

/-- The status after an instruction. -/
def statusAfter (i : Instr) (s : State) : Option RunStatus := (after (exec i s)).map (·.status)

/-- The listed memory after an instruction. -/
def memAfter (i : Instr) (s : State) : Option Memory := (after (exec i s)).map (·.mem)

/-- The pc after an instruction. -/
def pcAfter (i : Instr) (s : State) : Option Word := (after (exec i s)).map (·.pc)

/-- A state with one instruction word loaded. -/
def loaded (w : Nat) : State := State.reset.withFetchWord 32 w

/-- A state whose pc is 20 and whose flags word is given (the table of 95 section 2.5). -/
def branchState (fl : Word) : State := (State.reset.setFlags fl).setPc 20

/-- The reset state with input supplied. -/
def withInput (vs : List Word) (t : InTail) : State := { State.reset with inChan := { values := vs, tail := t } }

/-- The reset state under the alternative flags policy. -/
def aliasState : State := State.resetWith { flagsOperand := .asRegister }

/-- Parameters other than the defaults. -/
def oddParams : LaunchParams :=
  { opcodeValues := (List.range 22).map fun k => 31 - k, memSize := 16, spReset := 16, spIdx := 3,
    shrAmount := 3, zfBit := 5, ilen := 8, instrByteOrder := .big }

/-- A machine of 16-bit registers and an 8-bit pc, whose instruction word holds 6-bit register fields and a 12-bit
immediate: op 29:24, ra 23:18, rb 17:12, imm 11:0. -/
def narrowParams : LaunchParams :=
  { xlen := 16, pcWidth := 8, opcodeHi := 29, opcodeLo := 24, raHi := 23, raLo := 18, rbHi := 17, rbLo := 12,
    immHi := 11, immLo := 0 }

/-- The reset state of that machine. -/
def narrowState : State := State.resetWith narrowParams

/-! ### Well-formedness (R93, R96) -/

theorem test_wf_refuses_imm_above : immFits {} 32768 = false := by decide

theorem test_wf_refuses_imm_below : immFits {} (-32769) = false := by decide

theorem test_wf_accepts_bounds : immFits {} 32767 = true ∧ immFits {} (-32768) = true := by decide

theorem test_wf_refuses_each_immediate :
    [Instr.subl 0 32768, .addlImmReg 0 32768, .movlDerefReg 0 0 32768, .movlRegDeref 0 0 32768, .movlImmReg 0 32768,
      .je 32768, .jl 32768, .jle 32768, .jge 32768, .jbe 32768, .jmp 32768, .call 32768].all
      (fun i => !i.wellFormed {}) = true := by decide

theorem test_wf_refuses_each_ra :
    [Instr.subl 32 0, .addlRegReg 32 0, .addlImmReg 32 0, .imull 32 0, .shrl 32, .movlRegReg 32 0, .movlDerefReg 32 0 0,
      .movlRegDeref 32 0 0, .movlImmReg 32 0, .cmpl 32 0, .pushl 32, .popl 32, .printr 32, .readr 32].all
      (fun i => !i.wellFormed {}) = true := by decide

theorem test_wf_refuses_each_rb :
    [Instr.addlRegReg 0 32, .imull 0 32, .movlRegReg 0 32, .movlDerefReg 0 32 0, .movlRegDeref 0 32 0, .cmpl 0 32].all
      (fun i => !i.wellFormed {}) = true := by decide

theorem test_wf_refuses_fields :
    Decoded.wellFormed {} ⟨0, 0, 0, 32768⟩ = false ∧ Decoded.wellFormed {} ⟨32, 0, 0, 0⟩ = false ∧
      Decoded.wellFormed {} ⟨0, 32, 0, 0⟩ = false ∧ Decoded.wellFormed {} ⟨0, 0, 32, 0⟩ = false := by decide

/-! ### Launch parameters (R10): each check refuses an ill-formed record -/

theorem test_params_wf : ({} : LaunchParams).wf ∧ oddParams.wf ∧ narrowParams.wf := ⟨by decide, by decide, by decide⟩

theorem test_params_refuses_widths :
    ¬ ({ xlen := 33 } : LaunchParams).widthsFit ∧ ¬ ({ pcWidth := 33 } : LaunchParams).widthsFit := by decide

theorem test_params_refuses_registers :
    ¬ ({ spIdx := 17 } : LaunchParams).registersFit ∧ ¬ ({ nregs := 16 } : LaunchParams).registersFit ∧
      ¬ ({ flagsIdx := 6 } : LaunchParams).registersFit := by decide

theorem test_params_refuses_flag_bits :
    ¬ ({ ofBit := 32 } : LaunchParams).flagBitsFit ∧ ¬ ({ xlen := 11 } : LaunchParams).flagBitsFit ∧
      ¬ ({ zfBit := 7 } : LaunchParams).flagBitsFit := by decide

theorem test_params_refuses_fields :
    ¬ ({ opcodeHi := 32 } : LaunchParams).fieldsFit ∧ ¬ ({ raHi := 21 } : LaunchParams).fieldsFit ∧
      ¬ ({ rbHi := 22 } : LaunchParams).fieldsFit ∧ ¬ ({ immHi := 17 } : LaunchParams).fieldsFit ∧
      ¬ ({ xlen := 15 } : LaunchParams).fieldsFit := ⟨by decide, by decide, by decide, by decide, by decide⟩

theorem test_params_refuses_opcodes :
    ¬ ({ opcodeValues := [0, 1] } : LaunchParams).opcodesFit ∧
      ¬ ({ opcodeValues := List.replicate 22 0 } : LaunchParams).opcodesFit ∧
      ¬ ({ opcodeValues := (List.range 22).map (· + 11) } : LaunchParams).opcodesFit := by decide

theorem test_params_refuses_length : ¬ ({ ilen := 3 } : LaunchParams).lengthFits := by decide

theorem test_boot_refuses_params :
    boot { nregs := 16 } [] ⟨[], .nothingYet⟩ = .refused .parametersIllFormed := rfl

/-- Other parameters make another machine: the opcodes renumbered (row k at 31 - k), another memory size, shift
distance, stack pointer and flag bit. -/
theorem test_params_are_read :
    decodeWord oddParams 0xF8400005 = some (.subl 1 5) ∧ decodeWord oddParams 0x00400005 = none ∧
      statusAfter (.movlDerefReg 0 1 13) (State.resetWith oddParams) = some (.faulted (.memoryOutOfBounds 13) 0) ∧
      regAfter (.shrl 1) ((State.resetWith oddParams).setReg 1 16) 1 = some 2 ∧
      (State.resetWith oddParams).reg 3 = 16 ∧ cmpFlags oddParams 5 5 = 0x20 := by decide

/-- `XLEN` = 16: sums wrap at 2^16 and the sign is bit 15, in a compare, a shift and a printed line. -/
theorem test_xlen_is_read :
    regAfter (.addlImmReg 1 1) (narrowState.setReg 1 0xFFFF) 1 = some 0 ∧
      regAfter (.subl 1 1) narrowState 1 = some 0xFFFF ∧ regAfter (.shrl 1) (narrowState.setReg 1 0xFFFF) 1 = some 0x7FFF ∧
      cmpFlags narrowParams 0x8000 1 = 0x800 ∧ printLine narrowParams 0xFFFE = "-2 (0xfffe)\n" := by decide

/-- `PC_WIDTH` = 8: a branch and the fall-through wrap at 2^8, and at most 2^8 / 4 instructions have an address. -/
theorem test_pc_width_is_read :
    pcAfter (.jmp (-8)) narrowState = some 0xF8 ∧ pcAfter (.movlImmReg 0 1) (narrowState.setPc 252) = some 0 ∧
      narrowParams.maxInstrs = 64 := by decide

/-- The field positions: op 2 = `addl_imm_reg` with ra = 33 (illegal when it executes) and imm = -1, and ra = 1. -/
theorem test_fields_are_read :
    decodeWord narrowParams 0b00_000010_100001_000000_111111111111#32 = some (.addlImmReg 33 (-1)) ∧
      encode narrowParams (.addlImmReg 1 (-2)) = 0b00_000010_000001_000000_111111111110#32 ∧
      statusAfter (.addlImmReg 33 (-1)) narrowState = some (.faulted (.illegalRegister 33 .ra) 0) := by decide

/-! ### Decoding: words written out from R91 and R97 (op 31:27, ra 26:22, rb 21:17, bit 16, imm 15:0) -/

theorem test_decode_subl : decodeWord {} 0b00000_00001_00000_0_0000000000000101#32 = some (.subl 1 5) := by decide

theorem test_decode_addl_reg_reg : decodeWord {} 0b00001_00001_00010_0_0000000000000000#32 = some (.addlRegReg 1 2) := by decide

theorem test_decode_addl_imm_reg : decodeWord {} 0b00010_00000_00000_0_0000000000001010#32 = some (.addlImmReg 0 10) := by decide

theorem test_decode_imull : decodeWord {} 0b00011_00000_00001_0_0000000000000000#32 = some (.imull 0 1) := by decide

theorem test_decode_shrl : decodeWord {} 0b00100_00001_00000_0_0000000000000000#32 = some (.shrl 1) := by decide

theorem test_decode_movl_reg_reg : decodeWord {} 0b00101_00110_00111_0_0000000000000000#32 = some (.movlRegReg 6 7) := by decide

theorem test_decode_movl_deref_reg :
    decodeWord {} 0b00110_00011_00001_0_0000000001100100#32 = some (.movlDerefReg 3 1 100) := by decide

theorem test_decode_movl_reg_deref :
    decodeWord {} 0b00111_01100_00000_0_1111111111111000#32 = some (.movlRegDeref 12 0 (-8)) := by decide

theorem test_decode_movl_imm_reg : decodeWord {} 0b01000_00000_00000_1_1000000000000000#32 = some (.movlImmReg 0 (-32768)) := by decide

theorem test_decode_cmpl : decodeWord {} 0b01001_00011_00001_0_0000000001100100#32 = some (.cmpl 3 1) := by decide

theorem test_decode_je : decodeWord {} 0b01010_00000_00000_0_0000000000001000#32 = some (.je 8) := by decide

theorem test_decode_jl : decodeWord {} 0b01011_00000_00000_0_1111111111110100#32 = some (.jl (-12)) := by decide

theorem test_decode_jle : decodeWord {} 0b01100_00000_00000_0_0000000000001000#32 = some (.jle 8) := by decide

theorem test_decode_jge : decodeWord {} 0b01101_00000_00000_0_0000000000001000#32 = some (.jge 8) := by decide

theorem test_decode_jbe : decodeWord {} 0b01110_00000_00000_0_0000000000001000#32 = some (.jbe 8) := by decide

theorem test_decode_jmp : decodeWord {} 0b01111_00000_00000_0_0000000000000100#32 = some (.jmp 4) := by decide

theorem test_decode_call : decodeWord {} 0b10000_00000_00000_0_0000000000001100#32 = some (.call 12) := by decide

theorem test_decode_ret : decodeWord {} 0b10001_11111_11111_0_0000000000000000#32 = some .ret := by decide

theorem test_decode_pushl : decodeWord {} 0b10010_00000_00000_0_0000000000000000#32 = some (.pushl 0) := by decide

theorem test_decode_popl : decodeWord {} 0b10011_00001_00000_0_0000000000000000#32 = some (.popl 1) := by decide

theorem test_decode_printr : decodeWord {} 0b10100_00011_00000_0_0000000000000000#32 = some (.printr 3) := by decide

theorem test_decode_readr : decodeWord {} 0b10101_00001_00000_0_0000000000000000#32 = some (.readr 1) := by decide

/-- R99: opcodes 22 and 31 name no operation, rejected by name. -/
theorem test_decode_rejects :
    decodeBytes {} [0, 0, 0, 0xB0] = .error (.illegalOpcode 22) ∧
      decodeBytes {} [0xFF, 0xFF, 0xFF, 0xFF] = .error (.illegalOpcode 31) ∧
      decodeBytes {} [0, 0, 0] = .error (.truncated 3) := ⟨rfl, rfl, rfl⟩

/-- R105: the image bytes of the first word, and the word in the other byte order (R61). -/
theorem test_encode_bytes :
    encodeBytes {} (.movlImmReg 0 5) = [0x05, 0x00, 0x00, 0x40] ∧
      encodeBytes { instrByteOrder := .big } (.movlImmReg 0 5) = [0x40, 0x00, 0x00, 0x05] := by decide

/-- The table word of the host's numbering (95 section 2.1, and R97). -/
theorem test_decode_table_word :
    decodeTableWord 32 0x1000000A = some (.addlImmReg 0 10) ∧ decodeTableWord 32 0xB0000000 = none := by decide

/-! ### Reset (R46) -/

theorem test_reset_sp : State.reset.sp = 1024 ∧ State.reset.reg 5 = 0 ∧ State.reset.flags = 0 := by decide

theorem test_reset_memory_wf : State.reset.mem.wf ∧ State.reset.mem.inRange 1024 := by decide

/-! ### Arithmetic (95 section 2.2) -/

theorem test_subl_wraps : regAfter (.subl 1 1) (with1 1 0x80000000) 1 = some 0x7FFFFFFF := by decide

theorem test_subl_negative_imm : regAfter (.subl 1 (-32768)) State.reset 1 = some 0x8000 := by decide

theorem test_addl_reg_reg_second :
    regAfter (.addlRegReg 1 2) (withRegs [(1, 5), (2, 7)]) 2 = some 12 ∧
      regAfter (.addlRegReg 1 2) (withRegs [(1, 5), (2, 7)]) 1 = some 5 := by decide

theorem test_addl_reg_reg_doubles : regAfter (.addlRegReg 3 3) (with1 3 0x40000000) 3 = some 0x80000000 := by decide

theorem test_addl_imm_reg_wraps : regAfter (.addlImmReg 1 1) (with1 1 0xFFFFFFFF) 1 = some 0 := by decide

theorem test_imull_signed : regAfter (.imull 1 2) (withRegs [(1, 0xFFFFFFFD), (2, 7)]) 2 = some 0xFFFFFFEB := by decide

theorem test_imull_low_half : regAfter (.imull 1 2) (withRegs [(1, 0x80000000), (2, 0xFFFFFFFF)]) 2 = some 0x80000000 := by decide

theorem test_shrl_logical : regAfter (.shrl 1) (with1 1 0xFFFFFFFF) 1 = some 0x7FFFFFFF := by decide

theorem test_shrl_pattern : regAfter (.shrl 1) (with1 1 0x12345678) 1 = some 0x091A2B3C := by decide

/-! ### Data movement (95 section 2.3) -/

theorem test_movl_reg_reg_copies_sp : regAfter (.movlRegReg 6 7) State.reset 7 = some 1024 := by decide

theorem test_movl_deref_reg_negative_displacement :
    regAfter (.movlDerefReg 6 1 (-4)) (State.reset.setMem [(1020, 0xAA)]) 1 = some 0xAA := by decide

theorem test_movl_deref_reg_top :
    statusAfter (.movlDerefReg 3 1 1021) State.reset = some (.faulted (.memoryOutOfBounds 1021) 0) := by decide

theorem test_movl_reg_deref_bytes :
    memAfter (.movlRegDeref 0 3 101) (with1 0 0x11223344) =
      some [(101, 0x44), (102, 0x33), (103, 0x22), (104, 0x11)] := by decide

theorem test_movl_reg_deref_base_is_second :
    statusAfter (.movlRegDeref 1 6 0) State.reset = some (.faulted (.memoryOutOfBounds 1024) 0) := by decide

theorem test_movl_imm_reg_extends : regAfter (.movlImmReg 2 (-1)) State.reset 2 = some 0xFFFFFFFF := by decide

theorem test_movl_imm_reg_flags_field :
    statusAfter (.movlImmReg 16 1) State.reset = some (.faulted (.illegalRegister 16 .ra) 0) ∧
      regAfter (.movlImmReg 16 1) aliasState 16 = some 1 := by decide

/-- Writing zeros takes the bytes off the list (canonical form). -/
theorem test_memory_zero_write : Memory.writeWord [(4, 1), (5, 2), (9, 3)] 4 0 = [(9, 3)] := by decide

/-! ### Compare (95 section 2.4) and branches (95 section 2.5) -/

theorem test_cmpl_corner :
    regAfter (.cmpl 3 1) (withRegs [(3, 0x80000000), (1, 0)]) 16 = some 0x881 ∧
      regAfter (.cmpl 3 1) (withRegs [(3, 1), (1, 0x80000000)]) 16 = some 0x800 := by decide

theorem test_cmpl_rows :
    cmpFlags {} 5 5 = 0x40 ∧ cmpFlags {} 3 5 = 0x81 ∧ cmpFlags {} 5 3 = 0 ∧ cmpFlags {} 0xFFFFFFFE 0 = 0x80 ∧
      cmpFlags {} 0 0xFFFFFFFE = 1 ∧ cmpFlags {} 0x7FFFFFFF 0xFFFFFFFF = 0x881 ∧ cmpFlags {} 0xFFFFFFFF 0x7FFFFFFF = 0x80 := by
  decide

theorem test_je : pcAfter (.je 8) (branchState 0x40) = some 28 ∧ pcAfter (.je 8) (branchState 0x881) = some 24 := by decide

theorem test_jl : pcAfter (.jl 8) (branchState 0x80) = some 28 ∧ pcAfter (.jl 8) (branchState 0x881) = some 24 := by decide

theorem test_jle : pcAfter (.jle 8) (branchState 0x40) = some 28 ∧ pcAfter (.jle 8) (branchState 1) = some 24 := by decide

theorem test_jge : pcAfter (.jge 8) (branchState 0) = some 28 ∧ pcAfter (.jge 8) (branchState 0x800) = some 24 := by decide

theorem test_jbe : pcAfter (.jbe 8) (branchState 1) = some 28 ∧ pcAfter (.jbe 8) (branchState 0x800) = some 24 := by decide

theorem test_jmp_wraps : pcAfter (.jmp (-8)) State.reset = some 0xFFFFFFF8 := by decide

/-! ### Call and stack (95 section 2.6) -/

theorem test_call_pushes :
    memAfter (.call 12) (State.reset.setPc 4) = some [(1020, 8)] ∧ pcAfter (.call 12) (State.reset.setPc 4) = some 16 := by
  decide

theorem test_call_exhausted :
    statusAfter (.call 8) (with1 6 0) = some (.faulted (.memoryOutOfBounds (-4)) 0) := by decide

theorem test_ret_pops : pcAfter .ret ((with1 6 1020).setMem [(1020, 8)]) = some 8 := by decide

theorem test_ret_stops :
    statusAfter .ret State.reset = some (.halted .returnFromEmptyStack) ∧
      statusAfter .ret (with1 6 1022) = some (.faulted (.memoryOutOfBounds 1022) 0) := by decide

theorem test_pushl_old_sp : memAfter (.pushl 6) State.reset = some [(1021, 4)] := by decide

theorem test_popl_sp : regAfter (.popl 6) ((with1 6 1016).setMem [(1016, 7)]) 6 = some 11 := by decide

theorem test_popl_empty :
    statusAfter (.popl 1) State.reset = some (.faulted (.memoryOutOfBounds 1024) 0) := by decide

/-! ### I/O and the host's side (95 section 2.7) -/

theorem test_printr : (after (exec (.printr 0) (with1 0 15))).map (·.out) = some [15] := by decide

theorem test_readr : regAfter (.readr 2) (withInput [42] .nothingYet) 2 = some 42 := by decide

theorem test_readr_end : statusAfter (.readr 0) (withInput [] .endOfInput) = some (.faulted .inputExhausted 0) := by decide

theorem test_print_line : printLine {} 15 = "15 (0xf)\n" ∧ printLine {} (-1) = "-1 (0xffffffff)\n" := by decide

theorem test_exit :
    exitCode (.halted .endOfProgram) = some 0 ∧ exitCode (.faulted .inputExhausted 0) = some 1 ∧
      exitMessage (.faulted .inputExhausted 0) = some "Error: InputExhausted" := by decide

/-- An 8-byte instruction under `ilen := 8` in big-endian order: its last four bytes are the word (R61). -/
theorem test_image_words : imageWords oddParams [0, 0, 0, 0, 0x40, 0, 0, 5] = some [0x40000005] := by decide

/-- S9: a 6-byte image is refused. -/
theorem test_boot_refuses : boot {} [0, 0, 0, 0, 0, 0] ⟨[], .nothingYet⟩ = .refused .imageLengthNotMultiple := rfl

theorem test_asm : asmText (.movlRegDeref 12 0 (-8)) = "movl_reg_deref r12, r0, -8" ∧ asmText .ret = "ret" := by decide

/-! ### The cycle -/

/-- A misaligned pc fetches the word that contains it (95 section 2.5). -/
theorem test_fetch_truncates : (State.withFetched (State.reset.setPc 6) 0x78000004).fetch = .word 0x78000004 := by decide

theorem test_step_runs_placed : (after (step (loaded 0x40000005))).map (·.reg 0) = some 5 := by decide

/-- An empty image halts at the first step (R132). -/
theorem test_step_empty_image : (after (step State.reset)).map (·.status) = some (.halted .endOfProgram) := by decide

theorem test_step_illegal_opcode :
    (after (step (loaded 0xB0000000))).map (·.status) = some (.faulted (.illegalOpcode 22) 0) := by decide

/-! ### Witnesses: states and operands that meet the hypotheses of the statements -/

/-- Legal fields at both ends of the general range, the flags register only under the other policy, and illegal fields
at their bounds: the hypotheses of every register clause. -/
theorem witness_fields :
    Names State.reset 0 0 ∧ Names State.reset 15 15 ∧ Names State.reset 6 6 ∧ Names aliasState 16 16 ∧
      IllegalField State.reset 16 ∧ IllegalField State.reset 17 ∧ IllegalField State.reset 31 ∧
      IllegalField aliasState 17 ∧ State.reset.Shaped ∧ aliasState.Shaped :=
  ⟨⟨rfl, by decide, by decide⟩, ⟨rfl, by decide, by decide⟩, ⟨rfl, by decide, by decide⟩,
    ⟨rfl, by decide, by decide⟩, .inr ⟨rfl, rfl⟩, .inl (by decide),
    .inl (by decide), .inl (by decide), resetWith_shaped (by decide), resetWith_shaped (by decide)⟩

/-- Data addresses at both ends of the space and just outside: the hypotheses of the memory clauses. -/
theorem witness_addresses :
    InSpace State.reset 0 ∧ InSpace State.reset 1020 ∧ ¬ InSpace State.reset 1021 ∧ ¬ InSpace State.reset (-1) :=
  ⟨⟨by decide, by decide⟩, ⟨by decide, by decide⟩, fun h => absurd h.2 (by decide), fun h => absurd h.1 (by decide)⟩

/-- Stores and loads: base r6 = 1024 with displacement -4 is in the space, and with 0 it is not. -/
theorem witness_load_store :
    InSpace State.reset (State.reset.params.signed (State.reset.reg 6) + (-4#32).toInt) ∧
      ¬ InSpace State.reset (State.reset.params.signed (State.reset.reg 6) + (0#32).toInt) :=
  ⟨⟨by decide, by decide⟩, fun h => absurd h.2 (by decide)⟩

/-- A state's push is in the space. -/
def PushFits (s : State) : Prop := InSpace s (s.params.signed s.sp - 4)

/-- A state's pop is in the space. -/
def PopFits (s : State) : Prop := InSpace s (s.params.signed s.sp)

/-- A state's stack is empty, as `ret` tests it. -/
def StackEmpty (s : State) : Prop := s.sp = s.params.word s.params.spReset

/-- Pushes and calls: from the empty stack, from a stack of 4 bytes, and off both ends. -/
theorem witness_push :
    PushFits State.reset ∧ PushFits (with1 6 4) ∧ ¬ PushFits (with1 6 0) ∧ ¬ PushFits (with1 6 1028) :=
  ⟨⟨by decide, by decide⟩, ⟨by decide, by decide⟩, fun h => absurd h.1 (by decide), fun h => absurd h.2 (by decide)⟩

/-- Pops and returns: a pop in the space, the empty stack, and a pop outside it. -/
theorem witness_pop :
    (¬ StackEmpty (with1 6 1020) ∧ PopFits (with1 6 1020)) ∧ StackEmpty State.reset ∧
      ¬ StackEmpty (with1 6 1021) ∧ ¬ PopFits (with1 6 1021) :=
  ⟨⟨by unfold StackEmpty; decide, by decide, by decide⟩, by unfold StackEmpty; decide, by unfold StackEmpty; decide,
    fun h => absurd h.2 (by decide)⟩

/-- `readr`: an item, the two ends of the input, and nothing yet. -/
theorem witness_input :
    (withInput [42] .nothingYet).inChan.values[0]? = some 42 ∧
      (withInput [] .endOfInput).inChan.tail ≠ .nothingYet ∧ (withInput [] .notAnInteger).inChan.tail ≠ .nothingYet ∧
      (withInput [] .nothingYet).inPos = (withInput [] .nothingYet).inChan.values.length ∧
      (withInput [] .nothingYet).inChan.tail = .nothingYet := by decide

/-- The flags words of a conditional jump are free: one state meets its equations. -/
theorem witness_ConditionalJumpsBranch :
    (branchState 0x881).flags.getLsbD 0 = true ∧ (branchState 0x881).flags.getLsbD 6 = false ∧
      (branchState 0x881).flags.getLsbD 7 = true ∧ (branchState 0x881).flags.getLsbD 11 = true := by decide

/-- A fetched word, legal or illegal, in a running state. -/
theorem witness_FetchesWord :
    FetchesWord (loaded 0x40000005) 0x40000005 ∧ decodeWord {} 0x40000005 = some (.movlImmReg 0 5) ∧
      FetchesWord (loaded 0xB0000000) 0xB0000000 ∧ 22 = bitField 31 27 (0xB0000000 : Word) ∧
      22 ∉ ({} : LaunchParams).opcodeValues :=
  ⟨⟨rfl, by decide, rfl, .inl rfl⟩, by decide, ⟨rfl, by decide, rfl, .inl rfl⟩, by decide, by decide⟩

/-- Two `ret` words that differ in their unused fields (V-ST10). -/
theorem witness_UnusedFieldsAreDontCare :
    bitField 31 27 (0x8FFE0000 : Word) = bitField 31 27 (0x88000000 : Word) ∧
      ({} : LaunchParams).opcodeValues[17]? = some (bitField 31 27 (0x88000000 : Word)) ∧
      bitField 26 22 (0x8FFE0000 : Word) ≠ bitField 26 22 (0x88000000 : Word) ∧
      FetchesWord (loaded 0x8FFE0000) 0x8FFE0000 ∧ decodeWord {} 0x88000000 = some .ret :=
  ⟨by decide, by decide, by decide, ⟨rfl, by decide, rfl, .inl rfl⟩, by decide⟩

/-- Well-formed instructions and records at the bounds of the immediate. -/
theorem witness_wellFormed :
    (Instr.subl 31 (-32768)).wellFormed {} = true ∧ (Instr.jmp 32767).wellFormed {} = true ∧
      (Instr.subl 63 (-2048)).wellFormed narrowParams = true ∧
      Decoded.wellFormed {} ⟨31, 31, 31, -32768⟩ = true ∧ (0x8FFE0000 : Word).getLsbD 16 = false := by decide

/-- A machine of the spec's widths and one of others, each with its registers. -/
theorem witness_WidthsCutValues :
    ({} : LaunchParams).xlen = 32 ∧ ({} : LaunchParams).pcWidth = 32 ∧ narrowParams.wf ∧ narrowState.Shaped ∧
      16 < narrowState.regs.length ∧ (narrowState.setReg 1 0x12345).reg 1 = 0x2345 :=
  ⟨rfl, rfl, by decide, resetWith_shaped (by decide), by decide, by decide⟩

/-- A misaligned pc inside a program under the fault policy. -/
theorem witness_MisalignedPcFaultsUnderPolicy :
    let s : State := { (State.reset.setPc 6) with prog := [0, 0], params := { pcMisalign := .fault } }
    s.status = .running ∧ s.pc.toNat < s.params.ilen * s.prog.length ∧ s.params.pcMisalign = .fault ∧ s.pc.toNat % s.params.ilen ≠ 0 := by
  decide

/-- The end of a program: exactly past the last instruction, and far past it. -/
theorem witness_PastTheEndHalts :
    let s : State := { (State.reset.setPc 8) with prog := [0, 0] }
    s.status = .running ∧ s.params.ilen * s.prog.length ≤ s.pc.toNat ∧ s.params.ilen * s.prog.length ≤ (s.setPc 0xFFFFFFF8).pc.toNat := by
  decide

/-- A final status. -/
theorem witness_FinalStatusHasNoStep : ({ State.reset with status := .halted .endOfProgram } : State).status ≠ .running := by
  decide

/-- A state other than reset that meets the invariant and has a next state. -/
theorem witness_StepKeepsInv :
    (with1 0 7).Inv ∧ ∃ t, step (with1 0 7) = .next t :=
  ⟨⟨(resetWith_shaped defaultParams_wf).setReg 0 7, by decide, by decide,
    fun _ => by rw [show (with1 0 7).flags = 0 by decide]; exact onlyFlagBits_zero _, by decide,
    by decide, (fun _ _ h => by cases h), (fun h => by cases h), (fun h => by cases h)⟩, _, rfl⟩

/-- A booted image whose first step is a next state. -/
theorem witness_BootedRunsMeetInv :
    ∃ s t, boot {} [5, 0, 0, 0x40] ⟨[], .nothingYet⟩ = .next s ∧ Reaches s t ∧ t.reg 0 = 5 :=
  ⟨_, _, rfl, .next .start rfl, by decide⟩

/-- Images of a good and of a bad length, under well-formed parameters of either byte order. -/
theorem witness_BootFormsWords :
    ({} : LaunchParams).wf ∧ ({ instrByteOrder := .big } : LaunchParams).wf ∧ ({} : LaunchParams).ilen = 4 ∧
      [5, 0, 0, 0x40].length % ({} : LaunchParams).ilen = 0 ∧
      [5, 0, 0, 0x40].length / ({} : LaunchParams).ilen ≤ ({} : LaunchParams).maxInstrs ∧
      [5, 0, 0].length % ({} : LaunchParams).ilen ≠ 0 :=
  ⟨by decide, by decide, rfl, by decide, by decide, by decide⟩

/-- An instruction that writes no flag, under either policy, and a compare under each. -/
theorem witness_OnlyCmplWritesFlags :
    FlagsNotNamed State.reset (.shrl 1) ∧ FlagsNotNamed aliasState (.printr 1) ∧
      (∀ ra rb, Instr.shrl 1 ≠ .cmpl ra rb) ∧ (∃ t, exec (.shrl 1) State.reset = .next t) ∧
      Names State.reset 3 3 ∧ Names aliasState 15 15 :=
  ⟨.inl rfl, .inr (fun which f h => by cases which <;> cases h; decide), (fun _ _ h => by cases h), ⟨_, rfl⟩,
    ⟨rfl, by decide, by decide⟩, ⟨rfl, by decide, by decide⟩⟩

/-- An instruction that reads no flag, in a next state and in the wait. -/
theorem witness_OnlyConditionalJumpsReadFlags :
    FlagsNotNamed aliasState (.jmp 8) ∧ isConditionalJump (.jmp 8) = false ∧
      (∃ t, exec (.jmp 8) aliasState = .next t) ∧ exec (.readr 0) State.reset = .fault .waitingForInput :=
  ⟨.inr (fun which f h => by cases which <;> cases h), rfl, ⟨_, rfl⟩, rfl⟩

/-- Steps that fault, one for each kind (R270). -/
theorem witness_FaultCauses :
    (∃ t, step (loaded 0xB0000000) = .next t ∧ t.status = .faulted (.illegalOpcode 22) 0) ∧
      (∃ t, step (loaded 0x44400001) = .next t ∧ t.status = .faulted (.illegalRegister 17 .ra) 0) ∧
      (∃ t, step (loaded 0x98400000) = .next t ∧ t.status = .faulted (.memoryOutOfBounds 1024) 0) ∧
      (∃ t, step ((withInput [] .endOfInput).withFetchWord 32 0xA8000000) = .next t ∧
        t.status = .faulted .inputExhausted 0) ∧
      ∃ t, step { (State.reset.setPc 6) with prog := [0, 0], params := { pcMisalign := .fault } } = .next t ∧
        t.status = .faulted .misalignedPC 6 :=
  ⟨⟨_, rfl, rfl⟩, ⟨_, rfl, rfl⟩, ⟨_, rfl, rfl⟩, ⟨_, rfl, rfl⟩, _, rfl, rfl⟩

/-- Steps that halt, one for each reason. -/
theorem witness_HaltCauses :
    (∃ t, step State.reset = .next t ∧ t.status = .halted .endOfProgram) ∧
      ∃ t, step (loaded 0x88000000) = .next t ∧ t.status = .halted .returnFromEmptyStack :=
  ⟨⟨_, rfl, rfl⟩, _, rfl, rfl⟩

/-- A running state that waits. -/
theorem witness_OnlyReadrWaits :
    (loaded 0xA8000000).status = .running ∧ step (loaded 0xA8000000) = .fault .waitingForInput := ⟨rfl, rfl⟩

/-- Instructions that move a channel (also a next state for `StepKeepsLaunchState`). -/
theorem witness_OnlyIoMovesChannels :
    (∃ t, exec (.printr 0) State.reset = .next t ∧ t.out = [0]) ∧
      (∃ t, exec (.readr 0) (withInput [6] .nothingYet) = .next t ∧ t.inPos = 1) ∧
      ∃ t, step (loaded 0xA0000000) = .next t :=
  ⟨⟨_, rfl, rfl⟩, ⟨_, rfl, rfl⟩, _, rfl⟩

/-- A placed word that decodes, at an aligned pc. -/
theorem witness_PlacedWordRunsNext :
    decodeTableWord 32 0xA8000000 = some (.readr 0) ∧ decodeWord {} (BitVec.ofNat 32 0xA8000000) = some (.readr 0) ∧
      State.reset.params.pcMisalign = .truncate := by decide

/-- A compare that answers a next state. -/
theorem witness_CompareThenBranch :
    Names State.reset 3 3 ∧ Names State.reset 1 1 ∧ ∃ t, exec (.cmpl 3 1) State.reset = .next t :=
  ⟨⟨rfl, by decide, by decide⟩, ⟨rfl, by decide, by decide⟩, _, rfl⟩

/-- A call from the empty stack, and a callee that has kept r6 and the saved word. -/
theorem witness_CallThenReturnResumes :
    ∃ t, exec (.call 12) State.reset = .next t ∧ State.reset.params.memSize ≤ State.reset.params.spReset ∧
      State.reset.params.spReset < 2 ^ (State.reset.params.xlen - 1) ∧ InSpace State.reset (State.reset.params.signed State.reset.sp - 4) ∧
      (t.setReg 0 9).params = t.params ∧ (t.setReg 0 9).regs.length = t.regs.length ∧
      (t.setReg 0 9).sp = t.sp ∧ ∀ k, k < 4 → (t.setReg 0 9).mem.read (t.sp.toNat + k) = t.mem.read (t.sp.toNat + k) :=
  ⟨_, rfl, by decide, by decide, ⟨by decide, by decide⟩, rfl, by decide, by decide, fun _ _ => rfl⟩

/-- A next state of each frame group, a legal one and a faulting one. -/
theorem witness_frames :
    (∃ t, exec (.imull 1 2) State.reset = .next t) ∧ (∃ t, exec (.subl 17 1) State.reset = .next t) ∧
      (∃ t, exec (.movlDerefReg 3 1 1020) State.reset = .next t) ∧ (∃ t, exec (.popl 1) (with1 6 1016) = .next t) ∧
      (∃ t, exec .ret (with1 6 1020) = .next t) ∧ (∃ t, exec (.movlRegDeref 0 3 0) State.reset = .next t) ∧
      (∃ t, exec (.movlRegDeref 0 17 0) State.reset = .next t) ∧ (∃ t, exec (.pushl 0) State.reset = .next t) ∧
      (∃ t, exec (.call 8) State.reset = .next t) ∧ (∃ t, exec (.cmpl 0 1) State.reset = .next t) ∧
      (∃ t, exec (.jle 8) State.reset = .next t) ∧ ∃ t, exec (.readr 0) (withInput [6] .nothingYet) = .next t :=
  ⟨⟨_, rfl⟩, ⟨_, rfl⟩, ⟨_, rfl⟩, ⟨_, rfl⟩, ⟨_, rfl⟩, ⟨_, rfl⟩, ⟨_, rfl⟩, ⟨_, rfl⟩, ⟨_, rfl⟩, ⟨_, rfl⟩, ⟨_, rfl⟩, _, rfl⟩

end Sys2Proof.Machine.Tests
end

section
/-! The image and boot (spec/00_scope.md R8, spec/20_memory.md R61, spec/70_reset_and_hazards.md R302), and what a step
leaves of the launch (spec/10_state.md R43, R50); with them `BootFormsWords` and `ParameterDefaults`. -/

namespace Sys2Proof

/-! ### The bytes of an image word (R61) -/

/-- Byte `j` of the number that bytes form is the `j`-th of them. -/
theorem bytesValue_div_mod (l : List Byte) (j : Nat) : bytesValue l / 256 ^ j % 256 = (l.getD j 0).toNat := by
  induction l generalizing j with
  | nil => simp [bytesValue]
  | cons b l ih =>
    have hb := b.isLt
    cases j with
    | zero => simp only [bytesValue, List.getD_cons_zero]; omega
    | succ j =>
      have hdiv : (b.toNat + 256 * bytesValue l) / 256 = bytesValue l := by omega
      rw [bytesValue, Nat.pow_succ', ← Nat.div_div_eq_div_mul, hdiv, ih, List.getD_cons_succ]

theorem extractLsb'_ofNat_bytesValue (l : List Byte) {j : Nat} (hj : j < 4) :
    (BitVec.ofNat 32 (bytesValue l)).extractLsb' (8 * j) 8 = l.getD j 0 := by
  apply BitVec.eq_of_toNat_eq
  rw [← bytesValue_div_mod, BitVec.extractLsb'_toNat, BitVec.toNat_ofNat, Nat.shiftRight_eq_div_pow]
  interval_cases j <;> omega

theorem wordOfBytes_byte_little {p : LaunchParams} (h : p.instrByteOrder = .little) (bs : List Byte) {j : Nat}
    (hj : j < 4) : (wordOfBytes p bs).extractLsb' (8 * j) 8 = bs.getD j 0 := by
  simp only [wordOfBytes, h, extractLsb'_ofNat_bytesValue bs hj]

theorem wordOfBytes_byte_big {p : LaunchParams} (h : p.instrByteOrder = .big) {bs : List Byte} (hl : bs.length = 4)
    {j : Nat} (hj : j < 4) : (wordOfBytes p bs).extractLsb' (8 * j) 8 = bs.getD (3 - j) 0 := by
  simp only [wordOfBytes, h, extractLsb'_ofNat_bytesValue bs.reverse hj, List.getD_eq_getElem?_getD]
  rw [List.getElem?_reverse (by omega), hl]

/-- An entry of a slice of a list is an entry of the list. -/
theorem getD_take_drop (l : List Byte) (a : Nat) {n j : Nat} (hj : j < n) :
    ((l.drop a).take n).getD j 0 = l.getD (a + j) 0 := by
  simp only [List.getD_eq_getElem?_getD, List.getElem?_take_of_lt hj, List.getElem?_drop]

/-! ### The words of an image (R8, R302) -/

theorem imageWords_of_mod_ne {p : LaunchParams} {image : List Byte} (h : image.length % p.ilen ≠ 0) :
    imageWords p image = none := if_neg h

/-- An image of a good length has one word per instruction length, word `k` from the bytes at `ILEN*k`. -/
theorem imageWords_of_mod_eq {p : LaunchParams} {image : List Byte} (h : image.length % p.ilen = 0) :
    ∃ prog, imageWords p image = some prog ∧ prog.length = image.length / p.ilen ∧
      ∀ k, k < image.length / p.ilen →
        prog[k]? = some (wordOfBytes p ((image.drop (p.ilen * k)).take p.ilen)) :=
  ⟨_, if_pos h, by simp, fun k hk => by simp [List.getElem?_range hk]⟩

end Sys2Proof

namespace Sys2Proof.Machine

/-! ### Boot (R8, R302) -/

theorem boot_of_mod_ne {p : LaunchParams} {image : List Byte} (hp : p.wf) (h : image.length % p.ilen ≠ 0)
    (c : InChan) : boot p image c = .refused .imageLengthNotMultiple := by
  rw [boot, if_pos hp, imageWords_of_mod_ne h]

theorem boot_of_words {p : LaunchParams} {image : List Byte} {prog : List Word} (hp : p.wf)
    (hw : imageWords p image = some prog) (hn : prog.length ≤ p.maxInstrs) (c : InChan) :
    boot p image c = .next { State.resetWith p with prog := prog, inChan := c } := by
  rw [boot, if_pos hp, hw]
  exact if_pos hn

/-- What a boot that starts the core has checked, and the state it leaves. -/
theorem boot_eq_next {p : LaunchParams} {image : List Byte} {c : InChan} {s : State} (h : boot p image c = .next s) :
    p.wf ∧ ∃ prog, imageWords p image = some prog ∧ prog.length ≤ p.maxInstrs ∧
      s = { State.resetWith p with prog := prog, inChan := c } := by
  unfold boot at h
  split at h
  · next hp =>
    split at h
    · cases h
    · next prog hw =>
      split at h
      · next hn =>
        cases h
        exact ⟨hp, prog, hw, hn, rfl⟩
      · cases h
  · cases h

/-! ### What a step leaves of the launch (R43, R50) -/

/-- No instruction changes the instruction array, the input stream or the parameters. -/
theorem exec_sameLaunch {i : Instr} {s t : State} (h : exec i s = .next t) : SameLaunch s t := by
  have he := exec_effect i s
  rw [h] at he
  cases he with
  | pops ra k hk ha s1 h1 =>
    subst h1
    exact ⟨rfl, rfl, rfl⟩
  | _ => exact ⟨rfl, rfl, rfl⟩

/-- Nor does a step: outside an instruction it changes the status alone. -/
theorem step_sameLaunch {s t : State} (h : step s = .next t) : SameLaunch s t := by
  rcases step_cases (running_of_step h) with ⟨_, e⟩ | ⟨_, _, _, e⟩ | ⟨_, _, _, e⟩ | ⟨_, _, e⟩
  · cases e.symm.trans h; exact ⟨rfl, rfl, rfl⟩
  · cases e.symm.trans h; exact ⟨rfl, rfl, rfl⟩
  · cases e.symm.trans h; exact ⟨rfl, rfl, rfl⟩
  · exact exec_sameLaunch (e.symm.trans h)

theorem step_params {s t : State} (h : step s = .next t) : t.params = s.params := (step_sameLaunch h).2.2

/-! ### The obligations -/

/-- Settles O23: the length check of `boot` decides between refusal and start, and each word's bytes are read off the
slice of the image that forms it. -/
theorem bootFormsWords : Obligations.BootFormsWords := by
  unfold Obligations.BootFormsWords
  refine ⟨fun p image c hp => ⟨fun hbad => boot_of_mod_ne hp hbad c, fun hgood hmax => ?_⟩,
    fun s t h => congrArg LaunchParams.instrByteOrder (step_params h)⟩
  obtain ⟨prog, hw, hlen, hword⟩ := imageWords_of_mod_eq hgood
  refine ⟨_, boot_of_words hp hw (hlen ▸ hmax) c, hlen, rfl, rfl, fun h4 k hk => ?_⟩
  rw [h4] at hword
  have hslice : ((image.drop (4 * k)).take 4).length = 4 := by
    rw [List.length_take, List.length_drop]
    omega
  refine ⟨_, hword k hk, fun hlittle j hj => ?_, fun hbig j hj => ?_⟩
  · rw [wordOfBytes_byte_little hlittle _ hj, getD_take_drop _ _ hj]
  · rw [wordOfBytes_byte_big hbig hslice hj, getD_take_drop _ _ (by omega)]

/-- Settles O52: the defaults by computation, the booted state by what `boot` checked, the rest by the step's frame. -/
theorem parameterDefaults : Obligations.ParameterDefaults := by
  unfold Obligations.ParameterDefaults
  refine ⟨by decide, by decide, fun p image c s h => ?_, fun s t h => step_params h⟩
  obtain ⟨_, prog, _, hn, rfl⟩ := boot_eq_next h
  exact ⟨rfl, hn⟩

end Sys2Proof.Machine
end

section
/-! Who writes and who reads the flags register (spec/10_state.md R38, R39): `OnlyCmplWritesFlags` and
`OnlyConditionalJumpsReadFlags`. The second compares two runs: each shared operation, from a state and from that state with
the flags register set, gives answers that differ in that register at most (`SameUpToFlags`). -/

namespace Sys2Proof.Machine

/-! ### Fields that may not name the flags register (R33, R136) -/

/-- The destination of an instruction is one of the fields it uses. -/
theorem usedField_of_destField {i : Instr} {f : RegField} (h : destField i = some f) : ∃ w, usedField i w = some f := by
  cases i with
  | addlRegReg | imull | movlRegReg | movlDerefReg => exact ⟨.rb, h⟩
  | movlRegDeref | cmpl | pushl | popl | printr | readr => cases h
  | _ => exact ⟨.ra, h⟩

theorem FlagsNotNamed.ne_flags {s : State} {i : Instr} (hn : FlagsNotNamed s i) {w : FieldName} {f : RegField}
    (hu : usedField i w = some f) {j : RegIdx} (hj : Names s f j) : j ≠ s.params.flagsIdx :=
  hn.elim hj.ne_flags fun h => hj.1 ▸ h w f hu

/-! ### Only `cmpl` writes the flags register (R38) -/

theorem exec_flags {i : Instr} {s t : State} (hs : s.Shaped) (hn : FlagsNotNamed s i) (hc : ∀ ra rb, i ≠ .cmpl ra rb)
    (h : exec i s = .next t) : t.flags = s.flags := by
  have hsp := hs.sp_ne_flags.symm
  have he := exec_effect i s
  rw [h] at he
  cases he with
  | writesReg f j v hd hj =>
    obtain ⟨w, hu⟩ := usedField_of_destField hd
    exact State.setReg_reg_ne s (hn.ne_flags hu hj).symm v
  | reads ra j v hj hv => exact State.setReg_reg_ne s.consume (hn.ne_flags (w := .ra) rfl hj).symm v
  | setsFlags ra rb => exact absurd rfl (hc ra rb)
  | calls imm ha => exact State.setSp_reg_ne (s.setMem _) hsp _
  | pushes ra j hj ha => exact State.setSp_reg_ne (s.setMem _) hsp _
  | returns hne ha => exact State.setSp_reg_ne s hsp _
  | pops ra j hj ha s1 h1 =>
    subst h1
    exact (State.setSp_reg_ne (s.setReg j _) hsp _).trans
      (State.setReg_reg_ne s (hn.ne_flags (w := .ra) rfl hj).symm _)
  | _ => rfl

theorem State.setFlags_setFlags (s : State) (v x : Word) : (s.setFlags v).setFlags x = s.setFlags x := by
  simp [State.setReg]

/-- A compare of two other registers leaves nothing of the old flags word. -/
theorem exec_cmpl_setFlags {s : State} {ra rb : RegField} {i j : RegIdx} (hi : Names s ra i) (hj : Names s rb j)
    (hif : i ≠ s.params.flagsIdx) (hjf : j ≠ s.params.flagsIdx) (v : Word) :
    exec (.cmpl ra rb) (s.setFlags v) = exec (.cmpl ra rb) s := by
  have hold : exec (.cmpl ra rb) s = .next (s.setFlags (cmpFlags s.params (s.reg j) (s.reg i))).advance :=
    withFields_of_names hi hj
  have hnew : exec (.cmpl ra rb) (s.setFlags v) =
      .next ((s.setFlags v).setFlags (cmpFlags s.params ((s.setFlags v).reg j) ((s.setFlags v).reg i))).advance :=
    withFields_of_names (s := s.setFlags v) hi hj
  rw [hold, hnew, State.setFlags_reg_ne s hif, State.setFlags_reg_ne s hjf, State.setFlags_setFlags]

/-! ### Setting the flags register before an operation, or in what it answers (R39) -/

/-- Two answers that are the same but for the flags register, which the second may have set to `v`. -/
inductive SameUpToFlags (v : Word) : Out → Out → Prop where
  | same (o : Out) : SameUpToFlags v o o
  | set (t : State) : SameUpToFlags v (.next t) (.next (t.setFlags v))

theorem State.setFlags_setReg_comm (s : State) (v x : Word) {j : RegIdx} (h : j ≠ s.params.flagsIdx) :
    (s.setFlags v).setReg j x = (s.setReg j x).setFlags v := by
  simp only [State.setReg, List.set_comm _ _ h.symm]

theorem State.Shaped.setFlags_sp {s : State} (hs : s.Shaped) (v : Word) : (s.setFlags v).sp = s.sp :=
  State.setFlags_reg_ne s hs.sp_ne_flags v

theorem State.Shaped.setFlags_setSp {s : State} (hs : s.Shaped) (v x : Word) :
    (s.setFlags v).setSp x = (s.setSp x).setFlags v :=
  State.setFlags_setReg_comm s v x hs.sp_ne_flags

section
variable {s : State} {v : Word}

/-- The end of an instruction that writes another register, with a value that the flags have no part in. -/
theorem setReg_advance_setFlags {x y : Word} {j : RegIdx} (h : j ≠ s.params.flagsIdx) (hxy : x = y) :
    SameUpToFlags v (.next (s.setReg j y).advance) (.next ((s.setFlags v).setReg j x).advance) := by
  rw [hxy, State.setFlags_setReg_comm s v y h]
  exact .set (s.setReg j y).advance

theorem withField_setFlags {i : Instr} {w : FieldName} {f : RegField} {k k' : RegIdx → Out}
    (hn : FlagsNotNamed s i) (hu : usedField i w = some f)
    (h : ∀ j, j ≠ s.params.flagsIdx → SameUpToFlags v (k j) (k' j)) :
    SameUpToFlags v (withField w f s k) (withField w f (s.setFlags v) k') := by
  rcases names_or_illegal s f with ⟨j, hj⟩ | hf
  · rw [withField_of_names hj, withField_of_names (s := s.setFlags v) hj]
    exact h j (hn.ne_flags hu hj)
  · rw [withField_of_illegal hf, withField_of_illegal (s := s.setFlags v) hf]
    exact .set (faultedAt _ s)

theorem withFields_setFlags {i : Instr} {ra rb : RegField} {k k' : RegIdx → RegIdx → Out}
    (hn : FlagsNotNamed s i) (ha : usedField i .ra = some ra) (hb : usedField i .rb = some rb)
    (h : ∀ j l, j ≠ s.params.flagsIdx → l ≠ s.params.flagsIdx → SameUpToFlags v (k j l) (k' j l)) :
    SameUpToFlags v (withFields ra rb s k) (withFields ra rb (s.setFlags v) k') :=
  withField_setFlags hn ha fun j hj => withField_setFlags hn hb fun l hl => h j l hj hl

theorem withMemRead_setFlags {a a' : Int} {k k' : Word → Out} (ha : a' = a)
    (h : ∀ x, SameUpToFlags v (k x) (k' x)) :
    SameUpToFlags v (withMemRead a s k) (withMemRead a' (s.setFlags v) k') := by
  subst ha
  by_cases hin : InSpace s a'
  · rw [withMemRead_of_inSpace hin, withMemRead_of_inSpace (s := s.setFlags v) hin]
    exact h _
  · rw [withMemRead_of_outside hin, withMemRead_of_outside (s := s.setFlags v) hin]
    exact .set (faultedAt _ s)

theorem withMemWrite_setFlags {a a' : Int} {x x' : Word} {k k' : State → Out} (ha : a' = a) (hx : x' = x)
    (h : ∀ m, SameUpToFlags v (k (s.setMem m)) (k' ((s.setMem m).setFlags v))) :
    SameUpToFlags v (withMemWrite a x s k) (withMemWrite a' x' (s.setFlags v) k') := by
  subst ha hx
  by_cases hin : InSpace s a'
  · rw [withMemWrite_of_inSpace hin, withMemWrite_of_inSpace (s := s.setFlags v) hin]
    exact h _
  · rw [withMemWrite_of_outside hin, withMemWrite_of_outside (s := s.setFlags v) hin]
    exact .set (faultedAt _ s)

theorem withPush_setFlags {x x' : Word} {k k' : State → Out} (hs : s.Shaped) (hx : x' = x)
    (h : ∀ t, SameUpToFlags v (k t) (k' (t.setFlags v))) :
    SameUpToFlags v (withPush x s k) (withPush x' (s.setFlags v) k') := by
  have ha : pushAddr s.params (s.setFlags v).sp = pushAddr s.params s.sp := by rw [hs.setFlags_sp]
  refine withMemWrite_setFlags ha hx fun m => ?_
  rw [(hs.setMem m).setFlags_setSp, State.setReg_params, ha]
  exact h _

end

/-! ### Only the conditional jumps read the flags register (R39) -/

/-- Setting the flags register first changes nothing in the answer of an instruction other than a conditional jump, but
that register at most. -/
theorem exec_setFlags {i : Instr} {s : State} (v : Word) (hs : s.Shaped) (hn : FlagsNotNamed s i)
    (hj : isConditionalJump i = false) : SameUpToFlags v (exec i s) (exec i (s.setFlags v)) := by
  have hreg : ∀ j, j ≠ s.params.flagsIdx → (s.setFlags v).reg j = s.reg j := fun j h => State.setFlags_reg_ne s h v
  have hsp := hs.setFlags_sp v
  cases i with
  | subl ra imm =>
    exact withField_setFlags hn rfl fun j h => setReg_advance_setFlags h (by rw [hreg j h]; rfl)
  | addlRegReg ra rb =>
    exact withFields_setFlags hn rfl rfl fun j l h h' =>
      setReg_advance_setFlags h' (by rw [hreg j h, hreg l h']; rfl)
  | addlImmReg ra imm =>
    exact withField_setFlags hn rfl fun j h => setReg_advance_setFlags h (by rw [hreg j h]; rfl)
  | imull ra rb =>
    exact withFields_setFlags hn rfl rfl fun j l h h' =>
      setReg_advance_setFlags h' (by rw [hreg j h, hreg l h']; rfl)
  | shrl ra =>
    exact withField_setFlags hn rfl fun j h => setReg_advance_setFlags h (by rw [hreg j h]; rfl)
  | movlRegReg ra rb =>
    exact withFields_setFlags hn rfl rfl fun j l h h' => setReg_advance_setFlags h' (hreg j h)
  | movlDerefReg ra rb imm =>
    exact withFields_setFlags hn rfl rfl fun j l h h' =>
      withMemRead_setFlags (by rw [hreg j h]; rfl) fun x => setReg_advance_setFlags h' rfl
  | movlRegDeref ra rb imm =>
    exact withFields_setFlags hn rfl rfl fun j l h h' =>
      withMemWrite_setFlags (by rw [hreg l h']; rfl) (hreg j h) fun m => .set (s.setMem m).advance
  | movlImmReg ra imm => exact withField_setFlags hn rfl fun j h => setReg_advance_setFlags h rfl
  | cmpl ra rb =>
    refine withFields_setFlags hn rfl rfl fun j l h h' => ?_
    rw [hreg j h, hreg l h', State.setFlags_setFlags]
    exact .same _
  | je | jl | jle | jge | jbe => cases hj
  | jmp imm => exact .set (s.setPc _)
  | call imm =>
    show SameUpToFlags v (execCall imm s) (execCall imm (s.setFlags v))
    exact withPush_setFlags hs rfl fun t => .set (t.setPc _)
  | ret =>
    show SameUpToFlags v (execRet s) (execRet (s.setFlags v))
    unfold execRet
    rw [hsp, hs.setFlags_setSp, State.setReg_params]
    by_cases h : s.sp = s.params.word s.params.spReset
    · rw [if_pos h, if_pos h]
      exact .set { s with status := .halted .returnFromEmptyStack }
    · rw [if_neg h, if_neg h]
      exact withMemRead_setFlags rfl fun x => .set ((s.setSp (s.sp + 4)).setPc x)
  | pushl ra =>
    exact withField_setFlags hn rfl fun j h => withPush_setFlags hs (hreg j h) fun t => .set t.advance
  | popl ra =>
    refine withField_setFlags hn rfl fun j h => withMemRead_setFlags (by rw [hsp]; rfl) fun x => ?_
    rw [State.setFlags_setReg_comm s v x h]
    exact setReg_advance_setFlags hs.sp_ne_flags (by rw [(hs.setReg j x).setFlags_sp])
  | printr ra =>
    refine withField_setFlags hn rfl fun j h => ?_
    rw [hreg j h]
    exact .set (s.emit (s.reg j)).advance
  | readr ra =>
    refine withField_setFlags hn rfl fun j h => ?_
    rw [show (s.setFlags v).receive = s.receive from rfl]
    rcases receive_cases s with ⟨x, _, e⟩ | ⟨_, _, e⟩ | ⟨_, _, e⟩ | ⟨_, _, e⟩ <;> rw [e]
    · exact setReg_advance_setFlags (s := s.consume) h rfl
    · exact .same _
    · exact .set (faultedAt .inputExhausted s)
    · exact .set (faultedAt .inputExhausted s)

/-! ### The obligations -/

/-- Settles O15: the other instructions by the cases of `Effect`, and the two compares because they answer alike. -/
theorem onlyCmplWritesFlags : Obligations.OnlyCmplWritesFlags := by
  unfold Obligations.OnlyCmplWritesFlags
  refine ⟨fun i s t hs hn hc h => exec_flags hs hn hc h, fun s ra rb i j old hs hi hj hif hjf => ?_⟩
  have h : exec (.cmpl ra rb) s = .next _ := withFields_of_names hi hj
  exact ⟨_, _, h, (exec_cmpl_setFlags hi hj hif hjf old).trans h, rfl⟩

/-- Settles O16: the two answers are the same, or the second is the first with the flags register set. -/
theorem onlyConditionalJumpsReadFlags : Obligations.OnlyConditionalJumpsReadFlags := by
  unfold Obligations.OnlyConditionalJumpsReadFlags
  intro i s v hs hn hj
  have hans := exec_setFlags v hs hn hj
  generalize exec i (s.setFlags v) = o at hans ⊢
  constructor
  · intro t h
    obtain ⟨_, _, hparams⟩ := exec_sameLaunch h
    rw [h] at hans
    cases hans with
    | same => exact ⟨t, rfl, rfl, ⟨rfl, fun _ _ => rfl⟩, fun _ => rfl, rfl, ⟨rfl, rfl⟩, rfl, rfl, rfl⟩
    | set =>
      exact ⟨_, rfl, rfl, hparams ▸ sameRegsBut_setReg t _ v, fun _ => rfl, rfl, ⟨rfl, rfl⟩, rfl, rfl, rfl⟩
  · intro f h
    rw [h] at hans
    cases hans
    rfl

end Sys2Proof.Machine
end

section
/-! What the decoder reads of a word (spec/30_encoding.md R92, R95, R98, R99): the bits of the four fields, and of the fields
those that the opcode's row uses; with them `BitSixteenIgnored`, `IllegalOpcodesFaultWhenReached` and
`UnusedFieldsAreDontCare`. -/

namespace Sys2Proof

/-! ### Bits that no field covers (R92) -/

/-- Bit `j` of an instruction word lies in none of the four fields, as bit 16 does by default (R92). -/
abbrev LaunchParams.NoFieldCovers (p : LaunchParams) (j : Nat) : Prop :=
  (j < p.opcodeLo ∨ p.opcodeHi < j) ∧ (j < p.raLo ∨ p.raHi < j) ∧ (j < p.rbLo ∨ p.rbHi < j) ∧ (j < p.immLo ∨ p.immHi < j)

/-- Flipping a bit outside a field leaves the field. -/
theorem bitField_xor_twoPow {hi lo b : Nat} (h : b < lo ∨ hi < b) (w : Word) :
    bitField hi lo (w ^^^ BitVec.twoPow 32 b) = bitField hi lo w := by
  refine Nat.eq_of_testBit_eq fun j => ?_
  rw [bitField_testBit, bitField_testBit]
  by_cases hj : j < fieldWidth hi lo
  · have hne : b ≠ lo + j := by
      unfold fieldWidth at hj
      omega
    simp [hne]
  · simp [hj]

theorem decode_xor_twoPow {p : LaunchParams} {b : Nat} (h : p.NoFieldCovers b) (w : Word) :
    decode p (w ^^^ BitVec.twoPow 32 b) = decode p w := by
  obtain ⟨hop, hra, hrb, himm⟩ := h
  simp only [decode, bitField_xor_twoPow hop, bitField_xor_twoPow hra, bitField_xor_twoPow hrb, bitField_xor_twoPow himm]

theorem encodeFields_getLsbD_of_noFieldCovers {p : LaunchParams} (hp : p.fieldsFit) {b : Nat} (h : p.NoFieldCovers b)
    (d : Decoded) : (encodeFields p d).getLsbD b = false := by
  obtain ⟨hop, hra, hrb, himm⟩ := h
  rw [encodeFields_getLsbD hp, outside_field hop, outside_field hra, outside_field hrb, outside_field himm]
  rfl

/-- The default immediate as a number: bits 15:0 with bit 15 as the sign (R93). -/
theorem decode_imm_toInt (w : Word) : (decode {} w).imm.toInt = (w.extractLsb' 0 16).toInt := by
  show (sext32 16 (bitField 15 0 w)).toInt = _
  rw [sext32_default, BitVec.toInt_signExtend_of_le (by decide)]

/-! ### The row of an opcode and the fields it uses (R97, R98) -/

theorem getElem?_of_opcodeRow {p : LaunchParams} {op k : Nat} (h : opcodeRow p op = some k) :
    p.opcodeValues[k]? = some op := by
  obtain ⟨hk, he, -⟩ := List.findIdx?_eq_some_iff_getElem.mp h
  rw [List.getElem?_eq_getElem hk, eq_of_beq he]

/-- Field records with the same opcode that agree on the fields its row uses are the same instruction (R98). -/
theorem toInstr_congr {p : LaunchParams} (hp : p.opcodesFit) {d e : Decoded} (hop : e.opcode = d.opcode)
    (h : ∀ k, opcodeRow p d.opcode = some k →
      (k ∈ [0, 1, 2, 3, 4, 5, 6, 7, 8, 9, 18, 19, 20, 21] → e.ra = d.ra) ∧
        (k ∈ [1, 3, 5, 6, 7, 9] → e.rb = d.rb) ∧
        (k ∈ [0, 2, 6, 7, 8, 10, 11, 12, 13, 14, 15, 16] → e.imm = d.imm)) :
    e.toInstr p = d.toInstr p := by
  rw [Decoded.toInstr, Decoded.toInstr, hop]
  cases hr : opcodeRow p d.opcode with
  | none => rfl
  | some k =>
    obtain ⟨hra, hrb, himm⟩ := h k hr
    have hk : k < 22 := hp.1 ▸ opcodeRow_lt hr
    interval_cases k <;> simp [hra, hrb, himm]

end Sys2Proof

namespace Sys2Proof.Machine

/-! ### The obligations -/

/-- Settles O3: no default field covers bit 16, and the immediate is the word's low half read as a signed number. -/
theorem bitSixteenIgnored : Obligations.BitSixteenIgnored := by
  unfold Obligations.BitSixteenIgnored
  have hfree : ({} : LaunchParams).NoFieldCovers 16 := by decide
  refine ⟨decode_xor_twoPow hfree, encodeFields_getLsbD_of_noFieldCovers (LaunchParams.wf_fields defaultParams_wf) hfree,
    fun w => ?_⟩
  have hlow : (w.extractLsb' 0 16).toNat = w.toNat % 2 ^ 16 := by simp
  rw [decode_imm_toInt, BitVec.toInt_eq_toNat_cond, hlow]
  split <;> split <;> omega

/-- Settles O4: a word decodes to nothing where the opcode map leaves its opcode out, and the step of such a word faults. -/
theorem illegalOpcodesFaultWhenReached : Obligations.IllegalOpcodesFaultWhenReached := by
  unfold Obligations.IllegalOpcodesFaultWhenReached
  refine ⟨fun w => ?_, fun p w hp => decodeWord_eq_none (LaunchParams.wf_opcodes hp), ?_⟩
  · have hop : bitField 31 27 w = (w.extractLsb' 27 5).toNat := bitField_eq_extract 27 4 w
    rw [decodeWord_eq_none (LaunchParams.wf_opcodes defaultParams_wf), mem_defaultOpcodes, Nat.not_lt, hop]
  · rintro s w op hs hw rfl hop
    exact step_of_illegal hw ((decodeWord_eq_none (LaunchParams.wf_opcodes hs.params)).mpr hop)

/-- Settles O5: decoding depends on the fields of the opcode's row alone, and a fetched word runs as what it decodes to. -/
theorem unusedFieldsAreDontCare : Obligations.UnusedFieldsAreDontCare := by
  unfold Obligations.UnusedFieldsAreDontCare
  intro p v w hp hop hused
  have hd : decodeWord p w = decodeWord p v := by
    refine toInstr_congr (LaunchParams.wf_opcodes hp) hop fun k hk => ?_
    obtain ⟨hra, hrb, himm⟩ := hused k (getElem?_of_opcodeRow hk)
    exact ⟨hra, hrb, fun hm => congrArg (sext32 (fieldWidth p.immHi p.immLo)) (himm hm)⟩
  refine ⟨hd, ?_⟩
  rintro s i rfl hw hi
  exact step_of_decodes hw (hd.trans hi)

end Sys2Proof.Machine
end

section
/-! What the execution cycle ends with (spec/40_execution_cycle.md R132, R134), and the frames of the instructions (R138):
which registers an instruction may write (`MayWriteReg`), where it may store (`MayStoreAt`), and which channels it moves.
Each frame is said once over all instructions, by the cases of `Effect`, and the obligations read their rows off it. -/

namespace Sys2Proof.Machine

/-! ### The registers an instruction may write (R138) -/

/-- Instruction `i`, started in `s`, may write register `j` (R138): the register that its destination field names, the flags
register for `cmpl`, and `SP_IDX` for the four stack instructions. -/
inductive MayWriteReg (s : State) : Instr → RegIdx → Prop where
  | dest {i : Instr} {f : RegField} {j : RegIdx} (hd : destField i = some f) (hj : Names s f j) : MayWriteReg s i j
  | compare (ra rb : RegField) : MayWriteReg s (.cmpl ra rb) s.params.flagsIdx
  | call (imm : Word) : MayWriteReg s (.call imm) s.params.spIdx
  | ret : MayWriteReg s .ret s.params.spIdx
  | push (ra : RegField) : MayWriteReg s (.pushl ra) s.params.spIdx
  | popDest {ra : RegField} {j : RegIdx} (hj : Names s ra j) : MayWriteReg s (.popl ra) j
  | popSp (ra : RegField) : MayWriteReg s (.popl ra) s.params.spIdx
  | read {ra : RegField} {j : RegIdx} (hj : Names s ra j) : MayWriteReg s (.readr ra) j

/-- An instruction with a destination field writes no other register than the one that field holds. -/
theorem MayWriteReg.eq_of_destField {s : State} {i : Instr} {f : RegField} {j : RegIdx} (h : MayWriteReg s i j)
    (hd : destField i = some f) : j = f := by
  cases h with
  | dest hd' hj => exact hj.1.symm.trans (Option.some.inj (hd'.symm.trans hd))
  | _ => cases hd

/-- Under the default policy, an instruction that leaves memory and with it the stack alone writes the flags register only
as a compare. This needs no well-formed parameters: `SP_IDX` is not written. -/
theorem MayWriteReg.isCompare_of_flags {s : State} {i : Instr} (h : MayWriteReg s i s.params.flagsIdx)
    (hp : s.params.flagsOperand = .fault) (hm : accessesMemory i = false) : ∃ ra rb, i = .cmpl ra rb := by
  generalize hf : s.params.flagsIdx = j at h
  cases h with
  | dest hd hj => exact absurd hf.symm (hj.ne_flags hp)
  | compare ra rb => exact ⟨ra, rb, rfl⟩
  | read hj => exact absurd hf.symm (hj.ne_flags hp)
  | call | ret | push | popDest | popSp => cases hm

theorem exec_reg {i : Instr} {s t : State} {j : RegIdx} (h : exec i s = .next t) (hj : ¬ MayWriteReg s i j) :
    t.reg j = s.reg j := by
  have hne {k : RegIdx} (hk : MayWriteReg s i k) : j ≠ k := fun e => hj (e ▸ hk)
  have he := exec_effect i s
  rw [h] at he
  cases he with
  | writesReg f k v hd hk => exact State.setReg_reg_ne s (hne (.dest hd hk)) v
  | setsFlags ra rb => exact State.setFlags_reg_ne s (hne (.compare ra rb)) _
  | calls imm => exact State.setSp_reg_ne (s.setMem _) (hne (.call imm)) _
  | returns => exact State.setSp_reg_ne s (hne .ret) _
  | pushes ra => exact State.setSp_reg_ne (s.setMem _) (hne (.push ra)) _
  | pops ra k hk ha s1 h1 =>
    subst h1
    exact (State.setSp_reg_ne (s.setReg k _) (hne (.popSp ra)) _).trans (State.setReg_reg_ne s (hne (.popDest hk)) _)
  | reads ra k v hk => exact State.setReg_reg_ne s.consume (hne (.read hk)) v
  | _ => rfl

theorem exec_regs_length {i : Instr} {s t : State} (h : exec i s = .next t) : t.regs.length = s.regs.length := by
  have he := exec_effect i s
  rw [h] at he
  cases he with
  | pops ra k hk ha s1 h1 => simp [h1]
  | _ => simp

theorem exec_sameRegsBut {i : Instr} {s t : State} {d : List RegIdx} (h : exec i s = .next t)
    (hd : ∀ j, MayWriteReg s i j → j ∈ d) : SameRegsBut d s t :=
  ⟨exec_regs_length h, fun j hj => exec_reg h fun hw => hj (hd j hw)⟩

/-- The flags register, where the stack is left alone (R38). -/
theorem exec_flags_of_not_accessesMemory {i : Instr} {s t : State} (h : exec i s = .next t)
    (hp : s.params.flagsOperand = .fault) (hm : accessesMemory i = false) (hc : ∀ ra rb, i ≠ .cmpl ra rb) :
    t.flags = s.flags := by
  rw [State.flags, (exec_sameLaunch h).2.2]
  refine exec_reg h fun hw => ?_
  obtain ⟨ra, rb, e⟩ := hw.isCompare_of_flags hp hm
  exact hc ra rb e

/-! ### Where an instruction may store (R138) -/

/-- Instruction `i`, started in `s`, may store a word at `a`: the address that the store, the push or the call computes
(R182, R230, R232). -/
inductive MayStoreAt (s : State) : Instr → Int → Prop where
  | store (ra : RegField) {rb : RegField} (imm : Word) {j : RegIdx} (hj : Names s rb j) :
      MayStoreAt s (.movlRegDeref ra rb imm) (effAddr s.params (s.reg j) imm)
  | call (imm : Word) : MayStoreAt s (.call imm) (pushAddr s.params s.sp)
  | push (ra : RegField) : MayStoreAt s (.pushl ra) (pushAddr s.params s.sp)

theorem MayStoreAt.accessesMemory {s : State} {i : Instr} {a : Int} (h : MayStoreAt s i a) :
    accessesMemory i = true := by
  cases h with
  | store | call | push => rfl

theorem SameBytes.outside {s t : State} (h : SameBytes s t) (a : Int) : SameBytesOutside a s t := fun b _ => h b

/-- All that an instruction can do to memory: nothing, or one store at its address. -/
theorem exec_memory {i : Instr} {s t : State} (h : exec i s = .next t) :
    SameBytes s t ∨ ∃ a, MayStoreAt s i a ∧ SameBytesOutside a s t := by
  have he := exec_effect i s
  rw [h] at he
  cases he with
  | stores ra rb imm k j hk hj ha => exact .inr ⟨_, .store ra imm hj, sameBytesOutside_writeWord s ha.1 _⟩
  | calls imm ha => exact .inr ⟨_, .call imm, sameBytesOutside_writeWord s ha.1 _⟩
  | pushes ra k hk ha => exact .inr ⟨_, .push ra, sameBytesOutside_writeWord s ha.1 _⟩
  | pops ra k hk ha s1 h1 => subst h1; exact .inl fun _ => rfl
  | _ => exact .inl fun _ => rfl

theorem exec_sameBytes {i : Instr} {s t : State} (h : exec i s = .next t) (hn : ∀ a, ¬ MayStoreAt s i a) :
    SameBytes s t :=
  (exec_memory h).resolve_right fun ⟨a, ha, _⟩ => hn a ha

theorem exec_sameBytesOutside {i : Instr} {s t : State} {a : Int} (h : exec i s = .next t)
    (ha : ∀ b, MayStoreAt s i b → b = a) : SameBytesOutside a s t := by
  rcases exec_memory h with hsame | ⟨b, hb, hout⟩
  · exact hsame.outside a
  · exact ha b hb ▸ hout

theorem exec_sameBytes_of_not_accessesMemory {i : Instr} {s t : State} (h : exec i s = .next t)
    (hm : accessesMemory i = false) : SameBytes s t :=
  exec_sameBytes h fun _ ha => Bool.false_ne_true (hm.symm.trans ha.accessesMemory)

/-! ### The channels an instruction moves (R45) -/

theorem exec_out {i : Instr} {s t : State} (h : exec i s = .next t) (hp : ∀ ra, i ≠ .printr ra) : t.out = s.out := by
  have he := exec_effect i s
  rw [h] at he
  cases he with
  | prints ra => exact absurd rfl (hp ra)
  | pops ra k hk ha s1 h1 => subst h1; rfl
  | _ => rfl

theorem exec_inPos {i : Instr} {s t : State} (h : exec i s = .next t) (hr : ∀ ra, i ≠ .readr ra) :
    t.inPos = s.inPos := by
  have he := exec_effect i s
  rw [h] at he
  cases he with
  | reads ra => exact absurd rfl (hr ra)
  | pops ra k hk ha s1 h1 => subst h1; rfl
  | _ => rfl

theorem exec_sameChannels {i : Instr} {s t : State} (h : exec i s = .next t) (hp : ∀ ra, i ≠ .printr ra)
    (hr : ∀ ra, i ≠ .readr ra) : SameChannels s t :=
  ⟨exec_out h hp, exec_inPos h hr⟩

/-! ### The status after a register-only instruction (R136) -/

theorem exec_status_of_destField {i : Instr} {s t : State} {f : RegField} (h : exec i s = .next t)
    (hd : destField i = some f) (hm : accessesMemory i = false) :
    t.status = s.status ∨ ∃ g w, t = faultedAt (.illegalRegister g w) s := by
  have he := exec_effect i s
  rw [h] at he
  cases he with
  | illegalField g w => exact .inr ⟨g, w, rfl⟩
  | outOfBounds a ha hm' => exact absurd (hm.symm.trans hm') Bool.false_ne_true
  | writesReg => exact .inl rfl
  | branches => exact .inl rfl
  | _ => cases hd

/-! ### The obligations -/

/-- Settles O9: past the end the fetch finds no instruction. -/
theorem pastTheEndHalts : Obligations.PastTheEndHalts := by
  unfold Obligations.PastTheEndHalts
  intro s hr hl
  rw [step_running hr, runCycle, fetch_endOfProgram hl]
  rfl

/-- Settles O10: a step that answers a next state starts from a running state. -/
theorem finalStatusHasNoStep : Obligations.FinalStatusHasNoStep := by
  unfold Obligations.FinalStatusHasNoStep
  exact fun s t hn h => hn (running_of_step h)

/-- Settles O48: the seven instructions have a destination field and do not access memory, which is all that the frame
needs. -/
theorem registerInstrFrame : Obligations.RegisterInstrFrame := by
  unfold Obligations.RegisterInstrFrame
  intro s t ra rb imm i dest hi h
  obtain ⟨hd, hm⟩ : destField i = some dest ∧ accessesMemory i = false := by
    simp only [List.mem_cons, List.not_mem_nil, or_false] at hi
    rcases hi with ⟨rfl | rfl | rfl | rfl, rfl⟩ | ⟨rfl | rfl | rfl, rfl⟩ <;> exact ⟨rfl, rfl⟩
  have hnone {k : Instr} (hk : destField k = none) : i ≠ k := by
    rintro rfl
    cases hk.symm.trans hd
  exact ⟨fun j hj => exec_reg h fun hw => hj (hw.eq_of_destField hd),
    fun hp => exec_flags_of_not_accessesMemory h hp hm fun _ _ => hnone rfl,
    exec_sameBytes_of_not_accessesMemory h hm, exec_sameChannels h (fun _ => hnone rfl) fun _ => hnone rfl,
    exec_sameLaunch h, exec_status_of_destField h hd hm⟩

/-- Settles O49: each of the three writes the registers of its row, and none of them can store. -/
theorem loadPopReturnFrame : Obligations.LoadPopReturnFrame := by
  unfold Obligations.LoadPopReturnFrame
  intro s t ra rb imm i d hi hs h
  have hw : ∀ j, MayWriteReg s i j → j ∈ d := by
    rcases hi with ⟨rfl, rfl⟩ | ⟨rfl, rfl⟩ | ⟨rfl, rfl⟩ <;> intro j hw
    · exact List.mem_singleton.mpr (hw.eq_of_destField rfl)
    · cases hw with
      | dest hd => cases hd
      | popDest hj => simp [hj.1]
      | popSp => simp
    · cases hw with
      | dest hd => cases hd
      | ret => simp
  obtain ⟨hstore, hcmp, hprint, hread⟩ : (∀ a, ¬ MayStoreAt s i a) ∧ (∀ ra rb, i ≠ .cmpl ra rb) ∧
      (∀ ra, i ≠ .printr ra) ∧ ∀ ra, i ≠ .readr ra := by
    rcases hi with ⟨rfl, -⟩ | ⟨rfl, -⟩ | ⟨rfl, -⟩ <;> exact ⟨nofun, nofun, nofun, nofun⟩
  exact ⟨(exec_sameRegsBut h hw).2, fun hp => exec_flags hs (.inl hp) hcmp h, exec_sameBytes h hstore,
    exec_sameChannels h hprint hread, exec_sameLaunch h⟩

/-- Settles O50: the store writes no register and stores at the address of the register its base field names; the push and
the call write r6 and store below it. -/
theorem storePushCallFrame : Obligations.StorePushCallFrame := by
  unfold Obligations.StorePushCallFrame
  refine ⟨fun s t ra rb imm h => ?_, fun s t ra imm i hi h => ?_⟩
  · have hw : ∀ j, MayWriteReg s (.movlRegDeref ra rb imm) j → j ∈ [] := by
      intro j hw
      cases hw with
      | dest hd => cases hd
    refine ⟨exec_sameRegsBut h hw, exec_sameChannels h nofun nofun, exec_sameLaunch h, fun j a hj ha => ?_,
      fun hill => ?_⟩
    · refine exec_sameBytesOutside h fun b hb => ?_
      cases hb with
      | store _ _ hk => rw [← ha, hk.unique hj]
    · refine exec_sameBytes h fun a ha => ?_
      cases ha with
      | store _ _ hk => exact hk.not_illegal hill
  · have hw : ∀ j, MayWriteReg s i j → j ∈ [s.params.spIdx] := by
      rcases hi with rfl | rfl <;> intro j hw <;> cases hw with
      | dest hd => cases hd
      | _ => exact List.mem_singleton_self _
    have hstore : ∀ a, MayStoreAt s i a → a = pushAddr s.params s.sp := by
      rcases hi with rfl | rfl <;> intro a ha <;> cases ha <;> rfl
    have hchan : SameChannels s t := by
      rcases hi with rfl | rfl <;> exact exec_sameChannels h nofun nofun
    exact ⟨exec_sameRegsBut h hw, hchan, exec_sameLaunch h, fun a ha => exec_sameBytesOutside h (ha ▸ hstore)⟩

/-- Settles O51: none of them accesses memory, `cmpl` writes the flags register, `readr` what its field names, and the others
no register. -/
theorem compareJumpIoFrame : Obligations.CompareJumpIoFrame := by
  unfold Obligations.CompareJumpIoFrame
  intro s t ra rb imm i d hi h
  simp only [List.mem_cons, List.not_mem_nil, or_false] at hi
  obtain ⟨hm, hd⟩ : accessesMemory i = false ∧ destField i = none := by
    rcases hi with ⟨rfl, -⟩ | ⟨rfl | rfl | rfl | rfl | rfl | rfl | rfl, -⟩ | ⟨rfl, -⟩ <;> exact ⟨rfl, rfl⟩
  have hw : ∀ j, MayWriteReg s i j → j ∈ d := by
    intro j hw
    cases hw with
    | dest hd' => cases hd.symm.trans hd'
    | compare a b =>
      obtain ⟨-, rfl⟩ : (a = ra ∧ b = rb) ∧ d = [s.params.flagsIdx] := by simpa using hi
      exact List.mem_singleton_self _
    | @read r _ hj =>
      obtain ⟨hr, rfl⟩ : r = ra ∧ d = [ra] := by simpa using hi
      exact List.mem_singleton.mpr (hj.1.symm.trans hr)
    | call | ret | push | popDest | popSp => cases hm
  have hcmp (hne : i ≠ .cmpl ra rb) : ∀ a b, i ≠ .cmpl a b := by
    rintro a b rfl
    obtain ⟨⟨rfl, rfl⟩, -⟩ : (a = ra ∧ b = rb) ∧ d = [s.params.flagsIdx] := by simpa using hi
    exact hne rfl
  have hprint (hne : i ≠ .printr ra) : ∀ r, i ≠ .printr r := by
    rintro r rfl
    obtain ⟨rfl, -⟩ : r = ra ∧ d = [] := by simpa using hi
    exact hne rfl
  have hread (hne : i ≠ .readr ra) : ∀ r, i ≠ .readr r := by
    rintro r rfl
    obtain ⟨rfl, -⟩ : r = ra ∧ d = [ra] := by simpa using hi
    exact hne rfl
  exact ⟨(exec_sameRegsBut h hw).2, fun hp hne => exec_flags_of_not_accessesMemory h hp hm (hcmp hne),
    exec_sameBytes_of_not_accessesMemory h hm, exec_sameLaunch h, fun hne => exec_out h (hprint hne),
    fun hne => exec_inPos h (hread hne)⟩

end Sys2Proof.Machine
end

section
/-! The arithmetic instructions (spec/41_arithmetic.md R160 to R164): each is a row of the opcode map, checks its fields in
order, and writes the ALU's result to its destination; with them `SublSubtractsImmediate`, `AddlRegRegAddsIntoSecond`,
`AddlImmRegAddsImmediate`, `ImullKeepsLowProduct` and `ShrlHalvesUnsigned`. -/

namespace Sys2Proof.Machine

/-! ### A row of the opcode map (R97) -/

/-- The opcode map enters decoding through the row alone, so a row means under any parameters what it means by default. -/
theorem toInstr_eq_default {p : LaunchParams} {d : Decoded} {k : Nat} (hk : k < 22) (h : opcodeRow p d.opcode = some k) :
    d.toInstr p = { d with opcode := k }.toInstr {} := by
  have hdefault : opcodeRow {} k = some k := by interval_cases k <;> rfl
  rw [Decoded.toInstr, Decoded.toInstr, h, hdefault]

/-- What a row of the opcode map decodes to can be read off the default opcode map. -/
theorem opcodeDecodesTo_of_default {k : Nat} {f : RegField → RegField → Word → Instr} (hk : k < 22)
    (h : ∀ d : Decoded, { d with opcode := k }.toInstr {} = some (f d.ra d.rb d.imm)) : OpcodeDecodesTo k f :=
  opcodeDecodesTo_of hk fun _ d hd => (toInstr_eq_default hk hd).trans (h d)

/-! ### The ALU's result in its destination (R139) -/

/-- Writing a result that the ALU has already cut to `XLEN` bits is writing the uncut value. -/
theorem writesReg_of_eq_fit {s : State} {i : RegIdx} {u v : Word} (hi : i < s.regs.length) (h : u = s.params.fit v) :
    WritesReg s i v (s.setReg i u).advance := by
  obtain ⟨hreg, hrest⟩ := writesReg_setReg_advance hi u
  refine ⟨?_, hrest⟩
  rw [hreg, h, LaunchParams.fit_fit]

/-! ### The obligations -/

/-- Settles O26: the ALU's difference is the wrapping one, cut to the register. -/
theorem sublSubtractsImmediate : Obligations.SublSubtractsImmediate := by
  unfold Obligations.SublSubtractsImmediate
  refine ⟨opcodeDecodesTo_of_default (by decide) fun _ => rfl, fun s ra imm hs => ⟨fun i hi => ?_, withField_of_illegal⟩⟩
  exact ⟨_, withField_of_names hi, writesReg_of_eq_fit (hi.lt_length hs) (aluSub_eq ..)⟩

/-- Settles O27: the ALU's sum is the wrapping one, cut to the second register. -/
theorem addlRegRegAddsIntoSecond : Obligations.AddlRegRegAddsIntoSecond := by
  unfold Obligations.AddlRegRegAddsIntoSecond
  refine ⟨opcodeDecodesTo_of_default (by decide) fun _ => rfl, fun s ra rb hs =>
    ⟨fun i j hi hj => ?_, withFields_of_illegal_ra, fun i hi => withFields_of_illegal_rb hi⟩⟩
  exact ⟨_, withFields_of_names hi hj, writesReg_of_eq_fit (hj.lt_length hs) (aluAdd_eq ..)⟩

/-- Settles O28: the ALU's sum with the immediate is the wrapping one, cut to the register. -/
theorem addlImmRegAddsImmediate : Obligations.AddlImmRegAddsImmediate := by
  unfold Obligations.AddlImmRegAddsImmediate
  refine ⟨opcodeDecodesTo_of_default (by decide) fun _ => rfl, fun s ra imm hs => ⟨fun i hi => ?_, withField_of_illegal⟩⟩
  exact ⟨_, withField_of_names hi, writesReg_of_eq_fit (hi.lt_length hs) (aluAdd_eq ..)⟩

/-- Settles O29: the ALU's product is the signed product mod `2 ^ XLEN`, which the register holds whole. -/
theorem imullKeepsLowProduct : Obligations.ImullKeepsLowProduct := by
  unfold Obligations.ImullKeepsLowProduct
  refine ⟨opcodeDecodesTo_of_default (by decide) fun _ => rfl, fun s ra rb hs =>
    ⟨fun i j hi hj => ?_, withFields_of_illegal_ra, fun i hi => withFields_of_illegal_rb hi⟩⟩
  have hval := aluMul_toNat hs.params (s.reg i) (s.reg j)
  rw [Nat.cast_pow, Nat.cast_ofNat] at hval
  exact ⟨_, _, withFields_of_names hi hj, writesReg_setReg_advance (hj.lt_length hs) _, hval⟩

/-- Settles O30: the ALU's shift is the logical one on words, which is the unsigned quotient. -/
theorem shrlHalvesUnsigned : Obligations.ShrlHalvesUnsigned := by
  unfold Obligations.ShrlHalvesUnsigned
  refine ⟨opcodeDecodesTo_of_default (by decide) fun _ => rfl, fun s ra hs => ⟨fun i hi => ?_, withField_of_illegal⟩⟩
  have hval : (s.reg i >>> s.params.shrAmount).toNat = (s.reg i).toNat / 2 ^ s.params.shrAmount := by
    rw [BitVec.toNat_ushiftRight, Nat.shiftRight_eq_div_pow]
  exact ⟨_, _, withField_of_names hi, writesReg_of_eq_fit (hi.lt_length hs) (aluShr1_eq ..), hval⟩

end Sys2Proof.Machine
end

section
/-! The data movement instructions (spec/42_data_movement.md R180 to R183): each is a row of the opcode map and checks its
fields in order; the copies write a register, the load reads a word and the store writes one at an exact integer address;
with them `MovlRegRegCopies`, `MovlDerefRegLoads`, `MovlRegDerefStores` and `MovlImmRegLoadsImmediate`. -/

namespace Sys2Proof.Machine

/-! ### A word stored by an instruction that does not branch (R63) -/

/-- The whole effect of storing a word at an address that is not negative and going on at pc + 4. -/
theorem storesWord_setMem_advance {s t : State} {a : Int} {v : Word} (ha : 0 ≤ a)
    (ht : t = (s.setMem (s.mem.writeWord a.toNat v)).advance) :
    HoldsWord t a.toNat v ∧ SameBytesOutside a s t ∧ SameRegsBut [] s t ∧ t.pc = nextPc s ∧ SameRest s t := by
  subst ht
  exact ⟨holdsWord_writeWord s a.toNat v, sameBytesOutside_writeWord s ha v, ⟨rfl, fun _ _ => rfl⟩, State.advance_pc _,
    rfl, ⟨rfl, rfl⟩, rfl, rfl, rfl⟩

/-! ### The obligations -/

/-- Settles O32: the two checked fields give the address, and the read either passes the bounds check or faults with it. -/
theorem movlDerefRegLoads : Obligations.MovlDerefRegLoads := by
  unfold Obligations.MovlDerefRegLoads
  refine ⟨opcodeDecodesTo_of_default (by decide) fun _ => rfl, fun s ra rb imm hs =>
    ⟨fun i j a hi hj ha => ?_, withFields_of_illegal_ra, fun i hi => withFields_of_illegal_rb hi⟩⟩
  subst ha
  exact ⟨fun hin => ⟨_, (withFields_of_names hi hj).trans (withMemRead_of_inSpace hin),
      writesReg_setReg_advance (hj.lt_length hs) _⟩,
    fun hout => (withFields_of_names hi hj).trans (withMemRead_of_outside hout)⟩

/-- Settles O33: the second field gives the address, and the write either passes the bounds check or faults with it. -/
theorem movlRegDerefStores : Obligations.MovlRegDerefStores := by
  unfold Obligations.MovlRegDerefStores
  refine ⟨opcodeDecodesTo_of_default (by decide) fun _ => rfl, fun s ra rb imm =>
    ⟨fun i j a hi hj ha => ?_, withFields_of_illegal_ra, fun i hi => withFields_of_illegal_rb hi⟩⟩
  subst ha
  exact ⟨fun hin => ⟨_, (withFields_of_names hi hj).trans (withMemWrite_of_inSpace hin),
      storesWord_setMem_advance hin.1 rfl⟩,
    fun hout => (withFields_of_names hi hj).trans (withMemWrite_of_outside hout)⟩

/-- Settles O31: the second field names the register written, the first the one copied. -/
theorem movlRegRegCopies : Obligations.MovlRegRegCopies := by
  unfold Obligations.MovlRegRegCopies
  refine ⟨opcodeDecodesTo_of_default (by decide) fun _ => rfl, fun s ra rb hs =>
    ⟨fun i j hi hj => ?_, withFields_of_illegal_ra, fun i hi => withFields_of_illegal_rb hi⟩⟩
  exact ⟨_, withFields_of_names hi hj, writesReg_setReg_advance (hj.lt_length hs) _⟩

/-- Settles O34: the field names the register written, with the immediate as the value. -/
theorem movlImmRegLoadsImmediate : Obligations.MovlImmRegLoadsImmediate := by
  unfold Obligations.MovlImmRegLoadsImmediate
  refine ⟨opcodeDecodesTo_of_default (by decide) fun _ => rfl, fun s ra imm hs => ⟨fun i hi => ?_, withField_of_illegal⟩⟩
  exact ⟨_, withField_of_names hi, writesReg_setReg_advance (hi.lt_length hs) _⟩

end Sys2Proof.Machine
end

section
/-! Compare and branches (spec/43_compare_branch.md R200 to R208): the signed reading of a difference, the flags that a
compare leaves, and what a jump does under its condition; with them `CmplSetsFlags`, `ConditionalJumpsBranch` and
`JmpAlwaysBranches`. -/

namespace Sys2Proof

/-! ### Signed values as balanced remainders (R11) -/

/-- A register holds at least its four flag bits. -/
theorem LaunchParams.wf_xlen_pos {p : LaunchParams} (h : p.wf) : 0 < p.xlen :=
  Nat.zero_lt_of_lt (LaunchParams.wf_flagBits h).1.1

theorem signedLow_eq_bmod (k n : Nat) : signedLow k n = (n : Int).bmod (2 ^ k) := by
  have hhalf : 2 * (n % 2 ^ k) < 2 ^ k ↔ (n : Int) % ((2 ^ k : Nat) : Int) < (((2 ^ k : Nat) : Int) + 1) / 2 := by
    rw [← Int.natCast_mod]
    omega
  simp only [signedLow, Int.bmod_def, hhalf, Int.natCast_mod]

/-- The signed value of the low `XLEN` bits, from the signed value of the word that holds them. -/
theorem LaunchParams.signed_eq_bmod {p : LaunchParams} (h : p.wf) (v : Word) :
    p.signed v = v.toInt.bmod (2 ^ p.xlen) := by
  rw [LaunchParams.signed, signedLow_eq_bmod, BitVec.toInt_eq_toNat_bmod,
    Int.bmod_bmod_of_dvd (Nat.pow_dvd_pow 2 (LaunchParams.wf_xlen h))]

/-- A signed value lies in the signed range of `XLEN` bits. -/
theorem LaunchParams.signed_range {p : LaunchParams} (h : p.wf) (v : Word) :
    -2 ^ (p.xlen - 1) ≤ p.signed v ∧ p.signed v < 2 ^ (p.xlen - 1) := by
  have hle := Int.le_bmod (x := v.toInt) (Nat.two_pow_pos p.xlen)
  have hlt := Int.bmod_lt (x := v.toInt) (Nat.two_pow_pos p.xlen)
  rw [← LaunchParams.signed_eq_bmod h, ← Nat.two_pow_pred_mul_two (LaunchParams.wf_xlen_pos h)] at hle hlt
  push_cast at hle hlt
  omega

/-- The signed reading of a difference is the exact difference brought back into the signed range. -/
theorem LaunchParams.signed_sub {p : LaunchParams} (h : p.wf) (b a : Word) :
    p.signed (b - a) = (p.signed b - p.signed a).bmod (2 ^ p.xlen) := by
  rw [LaunchParams.signed_eq_bmod h, LaunchParams.signed_eq_bmod h, LaunchParams.signed_eq_bmod h, BitVec.toInt_sub,
    Int.bmod_bmod_of_dvd (Nat.pow_dvd_pow 2 (LaunchParams.wf_xlen h)), Int.sub_bmod]

/-- An exact difference in the signed range is read as it is; one outside is off by `2 ^ XLEN`. -/
theorem LaunchParams.signed_sub_cases {p : LaunchParams} (h : p.wf) (b a : Word) (d m : Int)
    (hd : d = p.signed b - p.signed a) (hm : m = 2 ^ (p.xlen - 1)) :
    (d < -m ∧ p.signed (b - a) = d + 2 * m) ∨ (-m ≤ d ∧ d < m ∧ p.signed (b - a) = d) ∨
      (m ≤ d ∧ p.signed (b - a) = d - 2 * m) := by
  have hpow : ((2 ^ p.xlen : Nat) : Int) = 2 * m := by
    rw [← Nat.two_pow_pred_mul_two (LaunchParams.wf_xlen_pos h), hm]
    push_cast
    ring
  obtain ⟨hb, hb'⟩ := LaunchParams.signed_range h b
  obtain ⟨ha, ha'⟩ := LaunchParams.signed_range h a
  rw [LaunchParams.signed_sub h, ← hd]
  rcases lt_or_ge d (-m) with hlow | hlow
  · refine .inl ⟨hlow, ?_⟩
    rw [← Int.add_bmod_right, hpow, Int.bmod_eq_of_le] <;> omega
  · rcases lt_or_ge d m with hhigh | hhigh
    · refine .inr (.inl ⟨hlow, hhigh, ?_⟩)
      rw [Int.bmod_eq_of_le] <;> omega
    · refine .inr (.inr ⟨hhigh, ?_⟩)
      rw [← Int.sub_bmod_right, hpow, Int.bmod_eq_of_le] <;> omega

end Sys2Proof

namespace Sys2Proof.Machine

/-! ### The flags of a compare (R200) -/

theorem cf_cmpFlags_iff {p : LaunchParams} (hp : p.wf) (b a : Word) :
    cf p (cmpFlags p b a) = true ↔ b.toNat < a.toNat := by
  obtain ⟨hcf, -⟩ := flags_cmpFlags hp b a
  rw [hcf, decide_eq_true_iff]

theorem zf_cmpFlags_iff {p : LaunchParams} (hp : p.wf) (b a : Word) :
    zf p (cmpFlags p b a) = true ↔ p.fit (b - a) = 0 := by
  obtain ⟨-, hzf, -⟩ := flags_cmpFlags hp b a
  rw [hzf, decide_eq_true_iff]

theorem sf_cmpFlags_iff {p : LaunchParams} (hp : p.wf) (b a : Word) :
    sf p (cmpFlags p b a) = true ↔ p.signed (b - a) < 0 := by
  obtain ⟨-, -, hsf, -⟩ := flags_cmpFlags hp b a
  rw [hsf, decide_eq_true_iff]

/-- The sign formula of R200 marks exactly the differences outside the signed range. -/
theorem signFormula_iff_outOfRange {p : LaunchParams} (hp : p.wf) (b a : Word) :
    ((p.signed b < 0 ↔ ¬ p.signed a < 0) ∧ (p.signed (b - a) < 0 ↔ ¬ p.signed b < 0)) ↔
      p.signed b - p.signed a < -2 ^ (p.xlen - 1) ∨ 2 ^ (p.xlen - 1) ≤ p.signed b - p.signed a := by
  have hdiff := LaunchParams.signed_sub_cases hp b a _ _ rfl rfl
  have hb := LaunchParams.signed_range hp b
  have ha := LaunchParams.signed_range hp a
  omega

theorem ovf_cmpFlags_iff_signFormula {p : LaunchParams} (hp : p.wf) (b a : Word) :
    ovf p (cmpFlags p b a) = true ↔
      (p.signed b < 0 ↔ ¬ p.signed a < 0) ∧ (p.signed (b - a) < 0 ↔ ¬ p.signed b < 0) := by
  obtain ⟨-, -, -, hovf⟩ := flags_cmpFlags hp b a
  simp only [hovf, Bool.and_eq_true, bne_iff_ne, ne_eq, decide_eq_decide, ← xor_iff_not_iff, xor_iff_iff_not]

theorem ovf_cmpFlags_iff_outOfRange {p : LaunchParams} (hp : p.wf) (b a : Word) :
    ovf p (cmpFlags p b a) = true ↔
      p.signed b - p.signed a < -2 ^ (p.xlen - 1) ∨ 2 ^ (p.xlen - 1) ≤ p.signed b - p.signed a :=
  (ovf_cmpFlags_iff_signFormula hp b a).trans (signFormula_iff_outOfRange hp b a)

/-- Overflow is exactly where the sign of the difference misreads the order, so the two together read it (R200). -/
theorem sf_xor_ovf_cmpFlags {p : LaunchParams} (hp : p.wf) (b a : Word) :
    (sf p (cmpFlags p b a) ^^ ovf p (cmpFlags p b a)) = true ↔ p.signed b < p.signed a := by
  have hdiff := LaunchParams.signed_sub_cases hp b a _ _ rfl rfl
  have hb := LaunchParams.signed_range hp b
  have ha := LaunchParams.signed_range hp a
  rw [Bool.xor_iff_ne, Ne, Bool.eq_iff_iff, ovf_cmpFlags_iff_outOfRange hp, sf_cmpFlags_iff hp]
  omega

/-- What a compare leaves in the flags register of a shaped state. -/
theorem setFlags_cmpFlags_flags {s : State} (hs : s.Shaped) (b a : Word) :
    (s.setFlags (cmpFlags s.params b a)).advance.flags = cmpFlags s.params b a :=
  (State.setFlags_flags hs.flags_lt _).trans (fit_cmpFlags hs.params b a)

/-! ### The jumps (R202) -/

/-- A jump goes to its target under its condition, to the next instruction otherwise, and changes nothing else. -/
theorem jumpIf_goesTo {taken : Bool} {c : Prop} [Decidable c] (h : taken = true ↔ c) (imm : Word) (s : State) :
    ∃ t, jumpIf taken imm s = .next t ∧ GoesTo s (if c then s.pc + imm else nextPc s) t := by
  obtain ⟨hpc, hrest⟩ := goesTo_setPc s (if taken then target s.params s.pc imm else fallthru s.params s.pc)
  refine ⟨_, rfl, ?_, hrest⟩
  rw [hpc]
  by_cases hc : c
  · rw [if_pos (h.mpr hc), if_pos hc, target_eq, LaunchParams.pcFit_pcFit]
  · rw [if_neg (fun ht => hc (h.mp ht)), if_neg hc, fallthru_eq]

/-! ### The branch conditions (R204 to R207) -/

theorem condL_iff {p : LaunchParams} {fl : Word} : condL p fl = true ↔ sf p fl ≠ ovf p fl := Bool.xor_iff_ne

theorem condLe_iff {p : LaunchParams} {fl : Word} : condLe p fl = true ↔ sf p fl ≠ ovf p fl ∨ zf p fl = true := by
  rw [condLe, Bool.or_eq_true, Bool.xor_iff_ne]

theorem condGe_iff {p : LaunchParams} {fl : Word} : condGe p fl = true ↔ sf p fl = ovf p fl := by
  rw [condGe, Bool.not_eq_true', ← Bool.not_eq_true, Bool.xor_iff_ne, not_not]

theorem condBe_iff {p : LaunchParams} {fl : Word} : condBe p fl = true ↔ cf p fl = true ∨ zf p fl = true := by
  rw [condBe, Bool.or_eq_true]

/-! ### The obligations -/

/-- Settles O35: the two checked fields give the operands, and the flags register then holds all of `cmpFlags`. -/
theorem cmplSetsFlags : Obligations.CmplSetsFlags := by
  unfold Obligations.CmplSetsFlags
  refine ⟨opcodeDecodesTo_of_default (by decide) fun _ => rfl, fun s ra rb hs =>
    ⟨fun i j a b r sa sb sr hi hj ha hb hr hsa hsb hsr => ?_, withFields_of_illegal_ra,
      fun i hi => withFields_of_illegal_rb hi⟩⟩
  subst hr hsa hsb hsr
  obtain ⟨-, hregs, hpc, hmem, hrest⟩ := writesReg_setReg_advance hs.flags_lt (cmpFlags s.params b a)
  refine ⟨(s.setFlags (cmpFlags s.params b a)).advance, ?_, hregs, hpc, hmem, hrest, ?_⟩
  · rw [ha, hb]
    exact withFields_of_names hi hj
  · rw [setFlags_cmpFlags_flags hs, LaunchParams.signed_fit]
    exact ⟨onlyFlagBits_cmpFlags hs.params b a, cf_cmpFlags_iff hs.params b a, zf_cmpFlags_iff hs.params b a,
      sf_cmpFlags_iff hs.params b a, ovf_cmpFlags_iff_signFormula hs.params b a,
      ovf_cmpFlags_iff_outOfRange hs.params b a, sf_xor_ovf_cmpFlags hs.params b a⟩

/-- Settles O36: each condition is read off the flags word, and `jumpIf` does the rest. -/
theorem conditionalJumpsBranch : Obligations.ConditionalJumpsBranch := by
  unfold Obligations.ConditionalJumpsBranch
  refine ⟨opcodeDecodesTo_of_default (by decide) fun _ => rfl, opcodeDecodesTo_of_default (by decide) fun _ => rfl,
    opcodeDecodesTo_of_default (by decide) fun _ => rfl, opcodeDecodesTo_of_default (by decide) fun _ => rfl,
    opcodeDecodesTo_of_default (by decide) fun _ => rfl, ?_⟩
  rintro s imm _ _ _ _ rfl rfl rfl rfl
  exact ⟨jumpIf_goesTo Iff.rfl imm s, jumpIf_goesTo condL_iff imm s, jumpIf_goesTo condLe_iff imm s,
    jumpIf_goesTo condGe_iff imm s, jumpIf_goesTo condBe_iff imm s⟩

/-- Settles O37: the condition of `jmp` is always met. -/
theorem jmpAlwaysBranches : Obligations.JmpAlwaysBranches := by
  unfold Obligations.JmpAlwaysBranches
  exact ⟨opcodeDecodesTo_of_default (by decide) fun _ => rfl,
    fun s imm => jumpIf_goesTo (c := True) (iff_of_true rfl trivial) imm s⟩

end Sys2Proof.Machine
end

section
/-! Call, return and the stack (spec/44_call_stack.md R230 to R234), and the halts: the state after a push (`State.pushed`) and
after a pop (`State.popped`), each with what it does to memory and registers, the two round trips over the stack, and what an
instruction does to the run status; with them `CallPushesReturnAddress`, `RetPopsOrHalts`, `PushlStoresBelowTop`,
`PoplLoadsThenMovesTop`, `PushThenPopRestores`, `CallThenReturnResumes` and `HaltCauses`. -/

namespace Sys2Proof.Machine

/-! ### A push (R230, R232) -/

/-- The state after the common part of a push: a word stored below the stack top, and `SP_IDX` moved there. -/
def State.pushed (s : State) (v : Word) : State :=
  (s.setMem (s.mem.writeWord (pushAddr s.params s.sp).toNat v)).setSp (s.params.word (pushAddr s.params s.sp))

/-- Where the bounds check passes, an instruction that pushes goes on from the pushed state. -/
theorem withPush_eq_pushed {s : State} {v : Word} {k : State → Out} (h : InSpace s (pushAddr s.params s.sp)) :
    withPush v s k = k (s.pushed v) :=
  withPush_of_inSpace h

theorem State.pushed_reg_ne (s : State) (v : Word) {j : RegIdx} (h : j ≠ s.params.spIdx) :
    (s.pushed v).reg j = s.reg j :=
  State.setSp_reg_ne (s.setMem _) h _

theorem State.Shaped.pushed {s : State} (hs : s.Shaped) (v : Word) : (s.pushed v).Shaped := (hs.setMem _).setReg _ _

theorem State.Shaped.pushed_sp {s : State} (hs : s.Shaped) (v : Word) :
    (s.pushed v).sp = s.params.word (pushAddr s.params s.sp) :=
  (State.setSp_sp (s := s.setMem _) hs.sp_lt _).trans (LaunchParams.fit_word _ _)

/-- Where the bounds check passes, the stack pointer is the address of the store. -/
theorem State.Shaped.pushed_sp_toNat {s : State} (hs : s.Shaped) (h0 : 0 ≤ pushAddr s.params s.sp) (v : Word) :
    ((s.pushed v).sp.toNat : Int) = pushAddr s.params s.sp := by
  rw [hs.pushed_sp]
  exact word_pushAddr_toNat hs.params (hs.reg_lt _) h0

/-- The whole effect of a push that then sets the pc. -/
theorem pushed_setPc_effect {s t : State} {a : Int} {v x : Word} (hs : s.Shaped) (ha : a = pushAddr s.params s.sp)
    (h0 : 0 ≤ a) (ht : t = (s.pushed v).setPc (s.params.pcFit x)) :
    HoldsWord t a.toNat v ∧ SameBytesOutside a s t ∧ (t.sp.toNat : Int) = a ∧ SameRegsBut [s.params.spIdx] s t ∧
      t.pc = s.params.pcFit x ∧ SameRest s t := by
  subst ht ha
  exact ⟨holdsWord_writeWord s _ v, sameBytesOutside_writeWord s h0 v, hs.pushed_sp_toNat h0 v,
    sameRegsBut_setReg (s.setMem _) _ _, LaunchParams.pcFit_pcFit _ _, rfl, ⟨rfl, rfl⟩, rfl, rfl, rfl⟩

/-! ### A pop (R231, R233) -/

/-- The state after a pop of the word `v` into register `i`: `SP_IDX` is read after the write, and moved up by 4 (D20). -/
def State.popped (s : State) (i : RegIdx) (v : Word) : State := (s.setReg i v).setSp ((s.setReg i v).sp + 4#32)

theorem State.popped_reg_ne (s : State) {i j : RegIdx} (hi : j ≠ i) (hsp : j ≠ s.params.spIdx) (v : Word) :
    (s.popped i v).reg j = s.reg j :=
  (State.setSp_reg_ne (s.setReg i v) hsp _).trans (State.setReg_reg_ne s hi v)

theorem State.popped_reg_self {s : State} {i : RegIdx} (hl : i < s.regs.length) (hi : i ≠ s.params.spIdx) (v : Word) :
    (s.popped i v).reg i = s.params.fit v :=
  (State.setSp_reg_ne (s.setReg i v) hi _).trans (State.setReg_reg_self hl v)

theorem State.Shaped.popped_sp_of_ne {s : State} (hs : s.Shaped) {i : RegIdx} (hi : i ≠ s.params.spIdx) (v : Word) :
    (s.popped i v).sp = s.params.fit (s.sp + 4#32) := by
  have hold : (s.setReg i v).sp = s.sp := State.setReg_reg_ne s hi.symm v
  rw [State.popped, State.setSp_sp (hs.setReg i v).sp_lt, hold, State.setReg_params]

/-- A pop into the stack pointer itself leaves the popped word plus 4. -/
theorem State.Shaped.popped_sp_self {s : State} (hs : s.Shaped) (v : Word) :
    (s.popped s.params.spIdx v).sp = s.params.fit (v + 4#32) := by
  have hnew : (s.setReg s.params.spIdx v).sp = s.params.fit v := State.setSp_sp hs.sp_lt v
  rw [State.popped, State.setSp_sp (hs.setReg _ v).sp_lt, hnew, State.setReg_params, LaunchParams.fit_add_fit hs.params]

theorem sameRegsBut_popped (s : State) (i : RegIdx) (v : Word) : SameRegsBut [i, s.params.spIdx] s (s.popped i v) := by
  refine ⟨by simp [State.popped], fun j hj => ?_⟩
  obtain ⟨hi, hsp⟩ : j ≠ i ∧ j ≠ s.params.spIdx := by simpa using hj
  exact s.popped_reg_ne hi hsp v

/-! ### The stack instructions inside the data space -/

theorem exec_pushl_of_inSpace {s : State} {ra : RegField} {i : RegIdx} (hi : Names s ra i)
    (ha : InSpace s (pushAddr s.params s.sp)) : exec (.pushl ra) s = .next (s.pushed (s.reg i)).advance :=
  (withField_of_names hi).trans (withPush_eq_pushed ha)

theorem exec_call_eq (imm : Word) (s : State) :
    exec (.call imm) s = withPush (nextPc s) s fun s1 => .next (s1.setPc (s.params.pcFit (s.pc + imm))) := rfl

theorem exec_call_of_inSpace {s : State} (imm : Word) (ha : InSpace s (pushAddr s.params s.sp)) :
    exec (.call imm) s = .next ((s.pushed (nextPc s)).setPc (s.params.pcFit (s.pc + imm))) :=
  (exec_call_eq imm s).trans (withPush_eq_pushed ha)

theorem exec_popl_of_inSpace {s : State} {ra : RegField} {i : RegIdx} (hi : Names s ra i)
    (ha : InSpace s (popAddr s.params s.sp)) :
    exec (.popl ra) s = .next (s.popped i (s.mem.readWord (popAddr s.params s.sp).toNat)).advance :=
  (withField_of_names hi).trans (withMemRead_of_inSpace ha)

theorem exec_ret_of_not_empty {s : State} (hn : s.sp ≠ s.params.word s.params.spReset) :
    exec .ret s = withMemRead (popAddr s.params s.sp) s fun v => .next ((s.setSp (s.sp + 4#32)).setPc v) :=
  if_neg hn

theorem exec_ret_of_inSpace {s : State} (hn : s.sp ≠ s.params.word s.params.spReset)
    (ha : InSpace s (popAddr s.params s.sp)) :
    exec .ret s = .next ((s.setSp (s.sp + 4#32)).setPc (s.mem.readWord (popAddr s.params s.sp).toNat)) :=
  (exec_ret_of_not_empty hn).trans (withMemRead_of_inSpace ha)

/-! ### A pop of what a push has stored (R234) -/

/-- After a push, in any state that has the parameters, the stack pointer and the stored bytes as the push left them, the pop
is in the data space and reads the pushed word. -/
theorem pop_reads_pushed {s u : State} {v : Word} (hs : s.Shaped) (ha : InSpace s (pushAddr s.params s.sp))
    (hparams : u.params = s.params) (hsp : u.sp = (s.pushed v).sp)
    (hbytes : ∀ k, k < 4 →
      u.mem.read ((s.pushed v).sp.toNat + k) = (s.pushed v).mem.read ((s.pushed v).sp.toNat + k)) :
    InSpace u (popAddr u.params u.sp) ∧ u.mem.readWord (popAddr u.params u.sp).toNat = v := by
  have haddr : popAddr u.params u.sp = pushAddr s.params s.sp := by
    rw [hparams, hsp, hs.pushed_sp]
    exact signed_word_pushAddr hs.params (hs.reg_lt _) ha.1
  have htop := hs.pushed_sp_toNat ha.1 v
  rw [haddr]
  refine ⟨?_, (Memory.readWord_congr fun b hlow hhigh => ?_).trans (Memory.readWord_writeWord s.mem _ v)⟩
  · rw [InSpace, hparams]
    exact ha
  · obtain ⟨k, rfl⟩ : ∃ k, b = (s.pushed v).sp.toNat + k := Nat.exists_eq_add_of_le (by omega)
    exact hbytes k (by omega)

/-- Four bytes below, then four bytes up: the stack pointer is back. -/
theorem State.Shaped.fit_pushed_sp_add {s : State} (hs : s.Shaped) (v : Word) :
    s.params.fit ((s.pushed v).sp + 4#32) = s.sp := by
  rw [hs.pushed_sp, word_pushAddr hs.params, LaunchParams.fit_add_fit hs.params, BitVec.sub_add_cancel, hs.fit_reg]

/-- A push of register `i` followed by a pop into it restores every register, where `i` is not the stack pointer. -/
theorem State.Shaped.popped_pushed_reg {s : State} (hs : s.Shaped) {i : RegIdx} (hl : i < s.regs.length)
    (hi : i ≠ s.params.spIdx) (j : RegIdx) : ((s.pushed (s.reg i)).popped i (s.reg i)).reg j = s.reg j := by
  have hlen : i < (s.pushed (s.reg i)).regs.length := (State.setReg_length (s.setMem _) _ _).symm ▸ hl
  by_cases hsp : j = s.params.spIdx
  · subst hsp
    exact ((hs.pushed _).popped_sp_of_ne hi _).trans (hs.fit_pushed_sp_add _)
  · by_cases hj : j = i
    · subst hj
      exact (State.popped_reg_self hlen hi _).trans (hs.fit_reg j)
    · exact (State.popped_reg_ne (s.pushed _) hj hsp _).trans (s.pushed_reg_ne _ hsp)

/-- A pushed stack inside data memory is not taken for the empty one, which lies past the end of data memory. -/
theorem State.Shaped.pushed_sp_ne_empty {s : State} (hs : s.Shaped) (hmem : s.params.memSize ≤ s.params.spReset)
    (hreset : s.params.spReset < 2 ^ (s.params.xlen - 1)) (ha : InSpace s (pushAddr s.params s.sp)) (v : Word) :
    (s.pushed v).sp ≠ s.params.word s.params.spReset := by
  obtain ⟨hlow, hhigh⟩ := ha
  have hpow : 2 ^ (s.params.xlen - 1) ≤ 2 ^ s.params.xlen := Nat.pow_le_pow_right (by decide) (Nat.sub_le _ _)
  have hempty : ((s.params.word s.params.spReset).toNat : Int) = s.params.spReset := by
    rw [LaunchParams.word_toNat hs.params]
    exact Int.emod_eq_of_lt (by omega) (by omega)
  have htop := hs.pushed_sp_toNat hlow v
  intro h
  rw [h] at htop
  omega

/-! ### What an instruction does to the run status (R44) -/

/-- An instruction keeps the status, or ends the run as a fault or as the return from the empty stack, and then changes
nothing else. -/
theorem exec_status {i : Instr} {s t : State} (h : exec i s = .next t) :
    t.status = s.status ∨ (∃ kind, t = faultedAt kind s) ∨
      (i = .ret ∧ s.sp = s.params.word s.params.spReset ∧ t = { s with status := .halted .returnFromEmptyStack }) := by
  have he := exec_effect i s
  rw [h] at he
  cases he with
  | illegalField | outOfBounds | inputEnded => exact .inr (.inl ⟨_, rfl⟩)
  | emptyStack hsp => exact .inr (.inr ⟨rfl, hsp, rfl⟩)
  | pops ra k hk ha s1 h1 =>
    subst h1
    exact .inl rfl
  | _ => exact .inl rfl

/-! ### The obligations -/

/-- Settles O39: the push of the return address either passes the bounds check or faults with its address. -/
theorem callPushesReturnAddress : Obligations.CallPushesReturnAddress := by
  unfold Obligations.CallPushesReturnAddress
  refine ⟨opcodeDecodesTo_of_default (by decide) fun _ => rfl, fun s imm a hs ha => ?_⟩
  subst ha
  exact ⟨fun hin => ⟨_, exec_call_of_inSpace imm hin, pushed_setPc_effect hs rfl hin.1 rfl⟩,
    fun hout => (exec_call_eq imm s).trans (withPush_of_outside hout)⟩

/-- Settles O40: the empty stack is tested first; then the read at the stack top either passes the bounds check or faults. -/
theorem retPopsOrHalts : Obligations.RetPopsOrHalts := by
  unfold Obligations.RetPopsOrHalts
  refine ⟨opcodeDecodesTo_of_default (by decide) fun _ => rfl, fun s a hs ha => ?_⟩
  subst ha
  refine ⟨fun hempty => if_pos hempty, fun hn hin => ?_,
    fun hn hout => (exec_ret_of_not_empty hn).trans (withMemRead_of_outside hout)⟩
  exact ⟨_, _, exec_ret_of_inSpace hn hin, holdsWord_readWord s _, rfl, State.setSp_sp hs.sp_lt _,
    sameRegsBut_setReg s _ _, fun _ => rfl, rfl, ⟨rfl, rfl⟩, rfl, rfl, rfl⟩

/-- Settles O41: the field is checked first, and the push then passes the bounds check or faults with its address. -/
theorem pushlStoresBelowTop : Obligations.PushlStoresBelowTop := by
  unfold Obligations.PushlStoresBelowTop
  refine ⟨opcodeDecodesTo_of_default (by decide) fun _ => rfl, fun s ra hs => ⟨fun i a hi ha => ?_, withField_of_illegal⟩⟩
  subst ha
  exact ⟨fun hin => ⟨_, exec_pushl_of_inSpace hi hin, pushed_setPc_effect hs rfl hin.1 rfl⟩,
    fun hout => (withField_of_names hi).trans (withPush_of_outside hout)⟩

/-- Settles O42: the field is checked first, and the read at the stack top then passes the bounds check or faults; the two
readings of r6 after the write are the two cases of `State.popped`. -/
theorem poplLoadsThenMovesTop : Obligations.PoplLoadsThenMovesTop := by
  unfold Obligations.PoplLoadsThenMovesTop
  refine ⟨opcodeDecodesTo_of_default (by decide) fun _ => rfl, fun s ra a hs ha => ⟨fun i hi => ?_, withField_of_illegal⟩⟩
  subst ha
  refine ⟨fun hin => ⟨_, _, exec_popl_of_inSpace hi hin, holdsWord_readWord s _, fun hne => ?_, fun heq => ?_,
      sameRegsBut_popped s i _, State.advance_pc _, fun _ => rfl, rfl, ⟨rfl, rfl⟩, rfl, rfl, rfl⟩,
    fun hout => (withField_of_names hi).trans (withMemRead_of_outside hout)⟩
  · exact ⟨State.popped_reg_self (hi.lt_length hs) hne _, hs.popped_sp_of_ne hne _⟩
  · subst heq
    exact hs.popped_sp_self _

/-- Settles O43: the pop reads where the push stored, so it puts the pushed value back. -/
theorem pushThenPopRestores : Obligations.PushThenPopRestores := by
  unfold Obligations.PushThenPopRestores
  intro s ra i hs hi ha
  obtain ⟨hin, hword⟩ := pop_reads_pushed (u := (s.pushed (s.reg i)).advance) hs ha rfl rfl fun _ _ => rfl
  have hpop := exec_popl_of_inSpace (s := (s.pushed (s.reg i)).advance) hi hin
  rw [hword] at hpop
  refine ⟨_, _, exec_pushl_of_inSpace hi ha, hpop, fun hne j => hs.popped_pushed_reg (hi.lt_length hs) hne j,
    fun heq => ?_, State.advance_pc _, State.advance_pc _⟩
  subst heq
  exact (hs.pushed _).popped_sp_self _

/-- Settles O44: the saved word is read from where the call stored it, and the stack is not empty there. -/
theorem callThenReturnResumes : Obligations.CallThenReturnResumes := by
  unfold Obligations.CallThenReturnResumes
  intro s t u imm hs hmem hreset ha hcall hparams hlen hsp hbytes
  cases (exec_call_of_inSpace imm ha).symm.trans hcall
  replace hparams : u.params = s.params := hparams
  replace hsp : u.sp = (s.pushed (nextPc s)).sp := hsp
  have hlt : u.params.spIdx < u.regs.length := by
    rw [hparams, hlen]
    exact (hs.pushed _).sp_lt
  have hne : u.sp ≠ u.params.word u.params.spReset := by
    rw [hsp, hparams]
    exact hs.pushed_sp_ne_empty hmem hreset ha _
  obtain ⟨hin, hword⟩ := pop_reads_pushed hs ha hparams hsp hbytes
  refine ⟨_, exec_ret_of_inSpace hne hin, ?_, (State.setSp_sp hlt _).trans ?_⟩
  · rw [hword, State.setPc_pc, State.setReg_params, hparams]
    exact LaunchParams.pcFit_pcFit _ _
  · rw [hsp, hparams, hs.fit_pushed_sp_add]

/-- Settles O19: outside an instruction a step halts only past the end, and an instruction only as `ret` on the empty
stack. -/
theorem haltCauses : Obligations.HaltCauses := by
  unfold Obligations.HaltCauses
  intro s t r h hr
  have hrun := running_of_step h
  rcases step_cases hrun with ⟨hend, e⟩ | ⟨-, -, -, e⟩ | ⟨_, -, -, e⟩ | ⟨i, hi, e⟩ <;> rw [e] at h
  · cases h
    cases hr
    exact ⟨rfl, .inl ⟨rfl, hend⟩⟩
  · cases h
    cases hr
  · cases h
    cases hr
  · rcases exec_status h with hsame | ⟨kind, rfl⟩ | ⟨rfl, hempty, rfl⟩
    · cases hr.symm.trans (hsame.trans hrun)
    · cases hr
    · cases hr
      exact ⟨rfl, .inr ⟨rfl, hi, hempty⟩⟩

end Sys2Proof.Machine
end

section
/-! The I/O instructions (spec/45_io.md R250 to R253): `printr` emits one value; `readr` has one rule per state of the input
stream at the read position (an item, an ended input, nothing yet), and the host's answer moves a waiting stream from the
last of these to one of the others; with them `PrintrEmitsValue`, `ReadrTakesInput` and `HostAnswerEndsWait`. -/

namespace Sys2Proof.Machine

/-! ### `printr` (R250) -/

theorem exec_printr_of_names {s : State} {ra : RegField} {i : RegIdx} (hi : Names s ra i) :
    exec (.printr ra) s = .next (s.emit (s.reg i)).advance :=
  withField_of_names hi

/-! ### `readr` by what stands at the read position (R252) -/

section
variable {s : State} {ra : RegField} {i : RegIdx}

theorem exec_readr_of_item {v : Word} (hi : Names s ra i) (hv : s.inChan.values[s.inPos]? = some v) :
    exec (.readr ra) s = .next (s.consume.setReg i v).advance := by
  have hrec : s.receive = .value v := by rw [State.receive, hv]
  exact (withField_of_names hi).trans (by rw [hrec])

theorem exec_readr_of_nothingYet (hi : Names s ra i) (hl : s.inChan.values.length ≤ s.inPos)
    (ht : s.inChan.tail = .nothingYet) : exec (.readr ra) s = .fault .waitingForInput := by
  have hrec : s.receive = .nothingYet := by rw [State.receive, List.getElem?_eq_none hl, ht]
  exact (withField_of_names hi).trans (by rw [hrec])

/-- End-of-input and input that is not an integer end in the same fault. -/
theorem exec_readr_of_ended (hi : Names s ra i) (hl : s.inChan.values.length ≤ s.inPos)
    (ht : s.inChan.tail ≠ .nothingYet) : exec (.readr ra) s = .next (faultedAt .inputExhausted s) := by
  have hrec : s.receive = .endOfInput ∨ s.receive = .notAnInteger := by
    rcases receive_cases s with ⟨v, hv, -⟩ | ⟨-, hw, -⟩ | ⟨-, -, e⟩ | ⟨-, -, e⟩
    · cases (List.getElem?_eq_none hl).symm.trans hv
    · exact absurd hw ht
    · exact .inl e
    · exact .inr e
  refine (withField_of_names hi).trans ?_
  rcases hrec with e | e <;> rw [e] <;> exact inputEnded_eq s

/-- With nothing supplied yet no step is enabled. -/
theorem exec_readr_ne_next (hi : Names s ra i) (hl : s.inChan.values.length ≤ s.inPos)
    (ht : s.inChan.tail = .nothingYet) (t : State) : exec (.readr ra) s ≠ .next t := by
  rw [exec_readr_of_nothingYet hi hl ht]
  exact nofun

end

/-! ### The host's answer (R253) -/

theorem hostSupply_of_nothingYet {s : State} (ht : s.inChan.tail = .nothingYet) (v : Word) :
    hostSupply v s = { s with inChan := { s.inChan with values := s.inChan.values ++ [v] } } := by
  rw [hostSupply, ht]

theorem hostSignal_of_nothingYet {s : State} (ht : s.inChan.tail = .nothingYet) (e : InTail) :
    hostSignal e s = { s with inChan := { s.inChan with tail := e } } := by
  rw [hostSignal, ht]

/-! ### The obligations -/

/-- Settles O47: the field is checked first, and then each state of the input stream has its own rule. -/
theorem readrTakesInput : Obligations.ReadrTakesInput := by
  unfold Obligations.ReadrTakesInput
  refine ⟨opcodeDecodesTo_of_default (by decide) fun _ => rfl, fun s ra hs =>
    ⟨fun i hi => ⟨fun v hv => ?_, exec_readr_of_ended hi, exec_readr_ne_next hi⟩, withField_of_illegal⟩⟩
  exact ⟨_, exec_readr_of_item hi hv, State.setReg_reg_self (s := s.consume) (hi.lt_length hs) v,
    sameRegsBut_setReg s.consume i v, rfl, rfl, State.advance_pc _, fun _ => rfl, rfl, rfl, rfl, rfl⟩

/-- Settles O24: the supplied value stands at the read position, and the signal leaves the stream ended there. -/
theorem hostAnswerEndsWait : Obligations.HostAnswerEndsWait := by
  unfold Obligations.HostAnswerEndsWait
  intro s ra i v e hs hi hpos ht he
  rw [hostSupply_of_nothingYet ht, hostSignal_of_nothingYet ht]
  have hitem : (s.inChan.values ++ [v])[s.inPos]? = some v := by rw [hpos, List.getElem?_concat_length]
  refine ⟨exec_readr_ne_next hi hpos.ge ht, ⟨_, exec_readr_of_item hi hitem, ?_, rfl, State.advance_pc _⟩,
    exec_readr_of_ended hi hpos.ge he, rfl, rfl⟩
  exact State.setReg_reg_self (hi.lt_length hs) v

/-- Settles O46: the field names the register whose value is emitted. -/
theorem printrEmitsValue : Obligations.PrintrEmitsValue := by
  unfold Obligations.PrintrEmitsValue
  refine ⟨opcodeDecodesTo_of_default (by decide) fun _ => rfl, fun s ra => ⟨fun i hi => ?_, withField_of_illegal⟩⟩
  exact ⟨_, exec_printr_of_names hi, rfl, rfl, ⟨rfl, fun _ _ => rfl⟩, State.advance_pc _, fun _ => rfl, rfl, rfl, rfl, rfl⟩

end Sys2Proof.Machine
end

section
/-! Faults (spec/60_exceptions.md R271): whatever raised a fault, the step only records its kind and the pc, so the
registers, the memory, the pc and the channels keep their values, and no step follows; with this
`FaultsArePreciseAndFinal`. -/

namespace Sys2Proof.Machine

/-- A step whose next state is faulted took that fault where it started: the fetch faults and the instruction's own faults
are all `faultedAt`, and no other case of a step ends in the status `faulted`. -/
theorem step_faulted {s t : State} {kind : FaultKind} {p : Word} (h : step s = .next t) (ht : t.status = .faulted kind p) :
    t = faultedAt kind s := by
  have hrun := running_of_step h
  rcases step_cases hrun with ⟨-, e⟩ | ⟨-, -, -, e⟩ | ⟨_, -, -, e⟩ | ⟨i, -, e⟩ <;> rw [e] at h
  · cases h
    cases ht
  · cases h
    cases ht
    rfl
  · cases h
    cases ht
    rfl
  · rcases exec_status h with hsame | ⟨kind', rfl⟩ | ⟨-, -, rfl⟩
    · cases ht.symm.trans (hsame.trans hrun)
    · cases ht
      rfl
    · cases ht

/-- Settles O17: the fault is recorded by `faultedAt`, at the pc of the state before, and a step starts only from a running
state. -/
theorem faultsArePreciseAndFinal : Obligations.FaultsArePreciseAndFinal := by
  unfold Obligations.FaultsArePreciseAndFinal
  intro s t kind p h ht
  have heq := step_faulted h ht
  refine ⟨?_, heq, fun u hu => ?_⟩
  · rw [heq, faultedAt_status] at ht
    cases ht
    rfl
  · cases ht.symm.trans (running_of_step hu)

end Sys2Proof.Machine
end

section
/-! What reset leaves (spec/70_reset_and_hazards.md R300, R302, spec/10_state.md R46): the reset state and every booted state
differ in the loaded image and the input stream at most; with this `ResetValues`. -/

namespace Sys2Proof.Machine

/-- Boot loads the image and the input stream; every other field is the one that reset left. -/
theorem eq_resetWith_of_reset_or_boot {p : LaunchParams} {s : State}
    (h : s = State.resetWith p ∨ ∃ image c, boot p image c = .next s) :
    ∃ prog inChan, s = { State.resetWith p with prog := prog, inChan := inChan } := by
  rcases h with hreset | ⟨image, c, hboot⟩
  · exact ⟨[], ⟨[], .nothingYet⟩, hreset⟩
  · obtain ⟨_, prog, _, _, hs⟩ := boot_eq_next hboot
    exact ⟨prog, c, hs⟩

/-- R32, R46: the stack pointer at reset. -/
theorem resetWith_sp {p : LaunchParams} (h : p.spIdx < p.nregs) : (State.resetWith p).sp = p.word p.spReset :=
  (resetWith_reg p h).trans (if_pos rfl)

/-- R46: every other register at reset. -/
theorem resetWith_reg_of_ne_sp {p : LaunchParams} (h : p.spIdx < p.nregs) {i : RegIdx} (hi : i ≠ p.spIdx) :
    (State.resetWith p).reg i = 0 :=
  (resetWith_reg p h).trans (if_neg hi)

/-- Settles O22: the registers are those of the reset state whatever boot loaded, the flags register is not the stack
pointer, and the numbers are these values at the default parameters. -/
theorem resetValues : Obligations.ResetValues := by
  unfold Obligations.ResetValues
  refine ⟨rfl, fun p s hp hs => ?_⟩
  obtain ⟨prog, inChan, rfl⟩ := eq_resetWith_of_reset_or_boot hs
  have hlen : (State.resetWith p).regs.length = p.nregs := (resetWith_shaped hp).regs
  obtain ⟨-, ⟨hlt, -, hne⟩, -⟩ := hp
  have hsp : (State.resetWith p).sp = p.word p.spReset := resetWith_sp hlt
  have hflags : (State.resetWith p).flags = 0 := resetWith_reg_of_ne_sp hlt hne.symm
  refine ⟨rfl, hlen, fun _ => resetWith_reg_of_ne_sp hlt, hsp, hflags, Memory.read_nil, rfl, rfl, rfl, rfl, ?_⟩
  rintro rfl
  exact ⟨hlen, hsp, hflags⟩

end Sys2Proof.Machine
end

section
/-! The encoder and the decoder undo each other (spec/30_encoding.md R95 to R97, R105): an instruction's field record fits its
fields and names the instruction, a record that fits is read back from its word, and the word is the sum of its fields; with
them `DecodeEncodeAgree`, `FieldEncodingRoundTrip` and `PrintedWordsDecode`. -/

namespace Sys2Proof

/-! ### The field record of an instruction (R96, R98) -/

theorem fieldFits_zero (hi lo : Nat) : fieldFits hi lo 0 = true :=
  decide_eq_true (Nat.two_pow_pos _)

theorem immFits_zero (p : LaunchParams) : immFits p 0 = true := by
  simp [immFits]

/-- The opcode map takes an instruction's field record back to the instruction (R97). -/
theorem toInstr_fields {p : LaunchParams} (h : p.opcodesFit) (i : Instr) : (i.fields p).toInstr p = some i := by
  cases i <;> simp [Decoded.toInstr, Instr.fields, opcodeRow_opcodeOf h]

/-- A well-formed instruction's field record fits: its opcode does, and an unused field holds 0. -/
theorem fields_wellFormed {p : LaunchParams} (h : p.opcodesFit) {i : Instr} (hi : i.wellFormed p = true) :
    (i.fields p).wellFormed p = true := by
  have hop {k : Nat} (hk : k < 22) : fieldFits p.opcodeHi p.opcodeLo (opcodeOf p k) = true :=
    decide_eq_true (opcodeOf_lt h hk)
  have hra : raFits p 0 = true := fieldFits_zero _ _
  have hrb : rbFits p 0 = true := fieldFits_zero _ _
  have himm : immFits p 0#32 = true := immFits_zero p
  cases i with
  | ret => simp [Instr.fields, Decoded.wellFormed, hop, hra, hrb, himm]
  | _ => simpa [Instr.wellFormed, Instr.fields, Decoded.wellFormed, hop, hra, hrb, himm] using hi

/-! ### A record read back from its word (R96) -/

theorem Decoded.eq_of_fields {d e : Decoded} (hop : d.opcode = e.opcode) (hra : d.ra = e.ra) (hrb : d.rb = e.rb)
    (himm : d.imm = e.imm) : d = e :=
  congr (congr (congr (congrArg Decoded.mk hop) hra) hrb) himm

theorem Decoded.wellFormed_iff {p : LaunchParams} {d : Decoded} :
    d.wellFormed p = true ↔
      d.opcode < 2 ^ fieldWidth p.opcodeHi p.opcodeLo ∧ d.ra < 2 ^ fieldWidth p.raHi p.raLo ∧
        d.rb < 2 ^ fieldWidth p.rbHi p.rbLo ∧ immFits p d.imm = true := by
  simp only [Decoded.wellFormed, raFits, rbFits, fieldFits, Bool.and_eq_true, decide_eq_true_iff, and_assoc]

/-- A record whose numbers fit their fields is read back from its word (R96). -/
theorem decode_encodeFields {p : LaunchParams} (h : p.fieldsFit) {d : Decoded} (hd : d.wellFormed p = true) :
    decode p (encodeFields p d) = d := by
  obtain ⟨hop, hra, hrb, himm⟩ := Decoded.wellFormed_iff.mp hd
  exact Decoded.eq_of_fields ((decode_encodeFields_opcode h d).trans (Nat.mod_eq_of_lt hop))
    ((decode_encodeFields_ra h d).trans (Nat.mod_eq_of_lt hra)) ((decode_encodeFields_rb h d).trans (Nat.mod_eq_of_lt hrb))
    ((decode_encodeFields_imm h d).trans (sext32_of_immFits h himm))

/-! ### The encoded word as a sum (R96) -/

/-- Fields that share no bit share none of the numbers placed in them. -/
theorem placeField_and_placeField {hi lo hi' lo' : Nat} (h : isField hi lo) (h' : isField hi' lo')
    (hapart : fieldsApart hi lo hi' lo') (m n : Nat) : placeField hi lo m &&& placeField hi' lo' n = 0#32 := by
  apply BitVec.eq_of_getLsbD_eq
  intro j _
  rw [BitVec.getLsbD_and, placeField_getLsbD h, placeField_getLsbD h', BitVec.getLsbD_zero]
  have hout : (j < lo ∨ hi < j) ∨ j < lo' ∨ hi' < j := by
    simp only [fieldsApart] at hapart
    omega
  rcases hout with hj | hj
  · rw [outside_field hj, Bool.false_and]
  · rw [outside_field hj, Bool.and_false]

/-- Words that share no bit: their union is their sum. -/
theorem toNat_or_of_and_eq_zero {v w : Word} (h : v &&& w = 0#32) : (v ||| w).toNat = v.toNat + w.toNat := by
  rw [← BitVec.add_eq_or_of_and_eq_zero v w h, BitVec.toNat_add_of_and_eq_zero h]

theorem encodeFields_toNat {p : LaunchParams} (h : p.fieldsFit) (d : Decoded) :
    (encodeFields p d).toNat =
      d.opcode % 2 ^ fieldWidth p.opcodeHi p.opcodeLo * 2 ^ p.opcodeLo + d.ra % 2 ^ fieldWidth p.raHi p.raLo * 2 ^ p.raLo +
        d.rb % 2 ^ fieldWidth p.rbHi p.rbLo * 2 ^ p.rbLo +
        d.imm.toNat % 2 ^ fieldWidth p.immHi p.immLo * 2 ^ p.immLo := by
  obtain ⟨⟨hop, hra, hrb, himm⟩, hopra, hoprb, hopimm, hrarb, hraimm, hrbimm, -⟩ := h
  have h1 := placeField_and_placeField hop hra hopra d.opcode d.ra
  have h2 := placeField_and_placeField hop hrb hoprb d.opcode d.rb
  have h3 := placeField_and_placeField hra hrb hrarb d.ra d.rb
  have h4 := placeField_and_placeField hop himm hopimm d.opcode d.imm.toNat
  have h5 := placeField_and_placeField hra himm hraimm d.ra d.imm.toNat
  have h6 := placeField_and_placeField hrb himm hrbimm d.rb d.imm.toNat
  rw [encodeFields, toNat_or_of_and_eq_zero, toNat_or_of_and_eq_zero, toNat_or_of_and_eq_zero h1, placeField_toNat hop,
    placeField_toNat hra, placeField_toNat hrb, placeField_toNat himm]
  · simp only [BitVec.and_or_distrib_right, h2, h3, BitVec.or_self]
  · simp only [BitVec.and_or_distrib_right, h4, h5, h6, BitVec.or_self]

/-! ### Encoding a decoded word (R92, R96) -/

/-- Sign extension keeps the field's own bits. -/
theorem sext32_testBit {k : Nat} (hk : k ≤ 32) (n : Nat) {j : Nat} (hj : j < k) :
    (sext32 k n).toNat.testBit j = n.testBit j := by
  have hlow : (sext32 k n).toNat % 2 ^ k = n % 2 ^ k := by
    have h := (w32_toNat_emod hk (signedLow k n)).trans (signedLow_emod k n)
    exact_mod_cast h
  have h := congrArg (Nat.testBit · j) hlow
  simpa [Nat.testBit_mod_two_pow, hj] using h

/-- Inside a field, its number read and placed again is the word. -/
theorem inside_field_of_testBit {hi lo n : Nat} {w : Word}
    (h : ∀ k, k < fieldWidth hi lo → n.testBit k = (bitField hi lo w).testBit k) (j : Nat) :
    (decide (lo ≤ j) && (decide (j ≤ hi) && n.testBit (j - lo))) =
      (decide (lo ≤ j) && (decide (j ≤ hi) && w.getLsbD j)) := by
  by_cases hin : lo ≤ j ∧ j ≤ hi
  · obtain ⟨hlo, hhi⟩ := hin
    have hk : j - lo < fieldWidth hi lo := by
      unfold fieldWidth
      omega
    rw [h _ hk, bitField_testBit, Nat.add_sub_cancel' hlo, decide_eq_true hk, Bool.true_and]
  · have hout : j < lo ∨ hi < j := by omega
    rw [outside_field hout, outside_field hout]

/-- Decoding and encoding again clears the bits that no field covers, and keeps the others. -/
theorem encodeFields_decode_getLsbD {p : LaunchParams} (h : p.fieldsFit) (w : Word) (j : Nat) :
    (encodeFields p (decode p w)).getLsbD j = (!decide (p.NoFieldCovers j) && w.getLsbD j) := by
  have hwidth : fieldWidth p.immHi p.immLo ≤ 32 := by
    obtain ⟨⟨-, -, -, -, hlt⟩, -⟩ := h
    unfold fieldWidth
    omega
  rw [encodeFields_getLsbD h, inside_field_of_testBit (n := (decode p w).opcode) fun _ _ => rfl,
    inside_field_of_testBit (n := (decode p w).ra) fun _ _ => rfl,
    inside_field_of_testBit (n := (decode p w).rb) fun _ _ => rfl,
    inside_field_of_testBit (n := (decode p w).imm.toNat) fun _ hk => sext32_testBit hwidth _ hk]
  cases w.getLsbD j with
  | false => simp
  | true =>
    rw [Bool.eq_iff_iff]
    simp only [Bool.and_true, Bool.or_eq_true, Bool.and_eq_true, Bool.not_eq_true', decide_eq_true_iff,
      decide_eq_false_iff_not]
    omega

/-- The default fields cover every bit but bit 16 (R92). -/
theorem noFieldCovers_default : ∀ j, j < 32 → (({} : LaunchParams).NoFieldCovers j ↔ j = 16) := by decide

/-- Under the default field positions only bit 16 is lost (R92, R96). -/
theorem encodeFields_decode_default (w : Word) : encodeFields {} (decode {} w) = w ↔ w.getLsbD 16 = false := by
  have hbit := encodeFields_decode_getLsbD (LaunchParams.wf_fields defaultParams_wf) w
  constructor
  · intro h
    rw [← h, hbit, decide_eq_true ((noFieldCovers_default 16 (by decide)).mpr rfl)]
    rfl
  · intro h
    apply BitVec.eq_of_getLsbD_eq
    intro j hj
    rw [hbit]
    by_cases hj16 : j = 16
    · rw [hj16, h, Bool.and_false]
    · rw [decide_eq_false (mt (noFieldCovers_default j hj).mp hj16)]
      rfl

end Sys2Proof

namespace Sys2Proof.Machine

/-! ### The obligations -/

/-- Settles O1: the record that is encoded fits its fields, so it is read back, and it names the instruction. -/
theorem decodeEncodeAgree : Obligations.DecodeEncodeAgree := by
  unfold Obligations.DecodeEncodeAgree
  intro p i hp hi
  have hop := LaunchParams.wf_opcodes hp
  have hword : decodeWord p (encode p i) = some i := by
    rw [decodeWord, encode, decode_encodeFields (LaunchParams.wf_fields hp) (fields_wellFormed hop hi), toInstr_fields hop]
  exact ⟨hword, decodeBytes_of_some (LaunchParams.wf_length hp) hword⟩

/-- Settles O2: a record that fits is its own remainder in each field, in the word and in the word's sum; of a word, decoding
loses bit 16 alone. -/
theorem fieldEncodingRoundTrip : Obligations.FieldEncodingRoundTrip := by
  unfold Obligations.FieldEncodingRoundTrip
  refine ⟨fun p d hp => decode_encodeFields (LaunchParams.wf_fields hp), fun p d hp hd => ?_, encodeFields_decode_default⟩
  obtain ⟨hop, hra, hrb, -⟩ := Decoded.wellFormed_iff.mp hd
  rw [encodeFields_toNat (LaunchParams.wf_fields hp), Nat.mod_eq_of_lt hop, Nat.mod_eq_of_lt hra, Nat.mod_eq_of_lt hrb]

/-- Settles O6: the eight printed words are decoded. -/
theorem printedWordsDecode : Obligations.PrintedWordsDecode := by
  unfold Obligations.PrintedWordsDecode
  decide

end Sys2Proof.Machine
end

section
/-! Why a step faults or waits, and which channel it moves (spec/60_exceptions.md R270, R274, spec/45_io.md R250 to R252): the
faults that an instruction raises, each under its cause (`RaisesFault`); with these `StepRunsDecodedInstr`,
`MisalignedPcFaultsUnderPolicy`, `FaultCauses`, `OnlyReadrWaits`, `OnlyIoMovesChannels` and `StepKeepsLaunchState`. -/

namespace Sys2Proof.Machine

/-! ### The faults of an instruction (R270) -/

/-- Instruction `i`, started in `s`, raises a fault of this kind: the causes that the table of R270 lists for it. -/
inductive RaisesFault (s : State) : Instr → FaultKind → Prop where
  | illegalField {i : Instr} {f : RegField} {w : FieldName} (hf : IllegalField s f) (hu : usedField i w = some f) :
      RaisesFault s i (.illegalRegister f w)
  | outOfBounds {i : Instr} {a : Int} (ha : ¬ InSpace s a) (hm : accessesMemory i = true) :
      RaisesFault s i (.memoryOutOfBounds a)
  | inputEnded (ra : RegField) (hl : s.inChan.values.length ≤ s.inPos) (ht : s.inChan.tail ≠ .nothingYet) :
      RaisesFault s (.readr ra) .inputExhausted

/-- An instruction that a running core ends faulted has raised that fault. -/
theorem exec_raisesFault {i : Instr} {s t : State} {kind : FaultKind} {p : Word} (hrun : s.status = .running)
    (h : exec i s = .next t) (ht : t.status = .faulted kind p) : RaisesFault s i kind := by
  have he := exec_effect i s
  rw [h] at he
  cases he with
  | illegalField f w hf hu =>
    cases ht
    exact .illegalField hf hu
  | outOfBounds a ha hm =>
    cases ht
    exact .outOfBounds ha hm
  | inputEnded ra hl hw =>
    cases ht
    exact .inputEnded ra hl hw
  | emptyStack => cases ht
  | pops ra k hk ha s1 h1 =>
    subst h1
    cases hrun.symm.trans ht
  | _ => cases hrun.symm.trans ht

/-! ### The wait of an instruction (R252) -/

/-- An instruction has a next state, or it is a `readr` that waits. -/
theorem exec_next_or_waits (i : Instr) (s : State) :
    (∃ t, exec i s = .next t) ∨
      (exec i s = .fault .waitingForInput ∧ s.inChan.values.length ≤ s.inPos ∧ s.inChan.tail = .nothingYet ∧
        ∃ ra k, i = .readr ra ∧ Names s ra k) := by
  have he := exec_effect i s
  generalize exec i s = o at he
  cases he with
  | waits ra k hk hl ht => exact .inr ⟨rfl, hl, ht, ra, k, rfl, hk⟩
  | _ => exact .inl ⟨_, rfl⟩

/-! ### How far an instruction moves a channel (R45) -/

theorem exec_out_cases {i : Instr} {s t : State} (h : exec i s = .next t) :
    t.out = s.out ∨ ∃ v, t.out = s.out ++ [v] := by
  have he := exec_effect i s
  rw [h] at he
  cases he with
  | prints ra k => exact .inr ⟨s.reg k, rfl⟩
  | pops ra k hk ha s1 h1 =>
    subst h1
    exact .inl rfl
  | _ => exact .inl rfl

/-- The read position moves by one item at most, and only over an item that is there. -/
theorem exec_inPos_cases {i : Instr} {s t : State} (h : exec i s = .next t) :
    t.inPos = s.inPos ∨ (t.inPos = s.inPos + 1 ∧ s.inPos < s.inChan.values.length) := by
  have he := exec_effect i s
  rw [h] at he
  cases he with
  | reads ra k v hk hv =>
    obtain ⟨hlt, -⟩ := List.getElem?_eq_some_iff.mp hv
    exact .inr ⟨rfl, hlt⟩
  | pops ra k hk ha s1 h1 =>
    subst h1
    exact .inl rfl
  | _ => exact .inl rfl

/-! ### The obligations -/

/-- Settles O7: the fetch finds the word, and the cycle hands its instruction to `exec`. -/
theorem stepRunsDecodedInstr : Obligations.StepRunsDecodedInstr := by
  unfold Obligations.StepRunsDecodedInstr
  exact fun s w i => step_of_decodes

/-- Settles O8: the fetch checks the pc before it reads a word. -/
theorem misalignedPcFaultsUnderPolicy : Obligations.MisalignedPcFaultsUnderPolicy := by
  unfold Obligations.MisalignedPcFaultsUnderPolicy
  intro s hrun hlt hpolicy hmod
  rw [step_running hrun, runCycle, fetch_misaligned hlt hpolicy hmod]
  rfl

/-- Settles O14: no instruction changes the launch, and outside an instruction a step changes the status alone. -/
theorem stepKeepsLaunchState : Obligations.StepKeepsLaunchState := by
  unfold Obligations.StepKeepsLaunchState
  exact fun s t => step_sameLaunch

/-- Settles O18: the fetch faults on a misaligned pc and the decoder on an illegal opcode; every other fault is raised by
the instruction that was fetched. -/
theorem faultCauses : Obligations.FaultCauses := by
  unfold Obligations.FaultCauses
  intro s t kind p hs h ht
  have hrun := running_of_step h
  rcases step_cases hrun with ⟨-, e⟩ | ⟨-, hpolicy, hmod, e⟩ | ⟨w, hw, hd, e⟩ | ⟨i, hi, e⟩ <;> rw [e] at h
  · cases h
    cases ht
  · cases h
    cases ht
    exact ⟨hpolicy, hmod⟩
  · cases h
    cases ht
    exact ⟨(decodeWord_eq_none (LaunchParams.wf_opcodes hs.params)).mp hd, w, hw, rfl⟩
  · cases exec_raisesFault hrun h ht with
    | illegalField hf hu => exact ⟨hf, i, hi, hu⟩
    | outOfBounds ha hm => exact ⟨ha, i, hi, hm⟩
    | inputEnded ra hl hw => exact ⟨hl, hw, ra, hi⟩

/-- Settles O20: outside an instruction every case of a step has a next state, and an instruction without one is a `readr`
that waits. -/
theorem onlyReadrWaits : Obligations.OnlyReadrWaits := by
  unfold Obligations.OnlyReadrWaits
  intro s hrun
  rcases step_cases hrun with ⟨-, e⟩ | ⟨-, -, -, e⟩ | ⟨w, -, -, e⟩ | ⟨i, hi, e⟩
  · exact .inl ⟨_, e⟩
  · exact .inl ⟨_, e⟩
  · exact .inl ⟨_, e⟩
  · rw [e]
    rcases exec_next_or_waits i s with hnext | ⟨hwait, hl, ht, ra, k, rfl, hk⟩
    · exact .inl hnext
    · exact .inr ⟨hwait, hl, ht, ra, k, hi, hk⟩

/-- Settles O21: each channel by the cases of `Effect`, which move it in one of them. -/
theorem onlyIoMovesChannels : Obligations.OnlyIoMovesChannels := by
  unfold Obligations.OnlyIoMovesChannels
  intro i s t h
  exact ⟨exec_out h, exec_out_cases h, exec_inPos h, (exec_inPos_cases h).imp_right And.left⟩

end Sys2Proof.Machine
end

section
/-! The invariant of a run (`State.Inv`, Safety.lean): the clauses that do not read the run status (`State.Steady`) hold at
boot and are kept by every instruction and by every change of the status; the clauses on a final status are what a step's
faults and halts tell; with these `StepKeepsInv`, `ResetMeetsInv` and `BootedRunsMeetInv`. -/

namespace Sys2Proof.Machine

/-! ### The clauses that do not read the run status -/

/-- The clauses of `State.Inv` that do not read the run status. -/
structure State.Steady (s : State) : Prop where
  shaped : s.Shaped
  memCanonical : s.mem.wf
  memInRange : s.mem.inRange s.params.memSize
  flagBits : s.params.flagsOperand = .fault → OnlyFlagBits s.params s.flags
  inPosBound : s.inPos ≤ s.inChan.values.length
  progBound : s.prog.length ≤ s.params.maxInstrs

theorem State.Inv.steady {s : State} (h : s.Inv) : s.Steady :=
  ⟨h.shaped, h.memCanonical, h.memInRange, h.flagBits, h.inPosBound, h.progBound⟩

theorem State.Shaped.withStatus {s : State} (h : s.Shaped) (st : RunStatus) : { s with status := st }.Shaped :=
  ⟨h.params, h.regs, h.regsFit, h.pcFits⟩

theorem State.Steady.withStatus {s : State} (h : s.Steady) (st : RunStatus) : { s with status := st }.Steady :=
  ⟨h.shaped.withStatus st, h.memCanonical, h.memInRange, h.flagBits, h.inPosBound, h.progBound⟩

/-- While a core runs, the clauses on a final status ask nothing. -/
theorem State.Steady.inv_of_running {s : State} (h : s.Steady) (hrun : s.status = .running) : s.Inv where
  shaped := h.shaped
  memCanonical := h.memCanonical
  memInRange := h.memInRange
  flagBits := h.flagBits
  inPosBound := h.inPosBound
  progBound := h.progBound
  faultRecord := fun _ _ hf => nomatch hrun.symm.trans hf
  endOfProgram := fun he => nomatch hrun.symm.trans he
  emptyStack := fun he => nomatch hrun.symm.trans he

/-! ### Every instruction keeps them -/

theorem exec_shaped {i : Instr} {s t : State} (hs : s.Shaped) (h : exec i s = .next t) : t.Shaped := by
  have he := exec_effect i s
  rw [h] at he
  cases he with
  | illegalField | outOfBounds | inputEnded | emptyStack => exact hs.withStatus _
  | writesReg f j v => exact (hs.setReg j v).advance
  | setsFlags => exact (hs.setReg _ _).advance
  | branches p => exact hs.setPc p
  | jumps => exact hs.setPc _
  | stores => exact (hs.setMem _).advance
  | calls => exact (hs.pushed _).setPc _
  | returns => exact (hs.setReg _ _).setPc _
  | pushes => exact (hs.pushed _).advance
  | pops ra j hj ha s1 h1 =>
    subst h1
    exact ((hs.setReg j _).setReg _ _).advance
  | prints => exact (hs.emit _).advance
  | reads ra j v => exact (hs.consume.setReg j v).advance

/-- Memory is kept, or written at four bytes that lie in the data space. -/
theorem exec_mem_cases {i : Instr} {s t : State} (h : exec i s = .next t) :
    t.mem = s.mem ∨ ∃ a v, InSpace s a ∧ t.mem = s.mem.writeWord a.toNat v := by
  have he := exec_effect i s
  rw [h] at he
  cases he with
  | stores ra rb imm j k hj hk ha => exact .inr ⟨_, _, ha, rfl⟩
  | calls imm ha => exact .inr ⟨_, _, ha, rfl⟩
  | pushes ra j hj ha => exact .inr ⟨_, _, ha, rfl⟩
  | pops ra j hj ha s1 h1 =>
    subst h1
    exact .inl rfl
  | _ => exact .inl rfl

theorem exec_mem_wf {i : Instr} {s t : State} (hm : s.mem.wf) (h : exec i s = .next t) : t.mem.wf := by
  rcases exec_mem_cases h with e | ⟨a, v, -, e⟩ <;> rw [e]
  · exact hm
  · exact Memory.wf_writeWord hm _ v

theorem exec_mem_inRange {i : Instr} {s t : State} (hm : s.mem.inRange s.params.memSize) (h : exec i s = .next t) :
    t.mem.inRange s.params.memSize := by
  rcases exec_mem_cases h with e | ⟨a, v, ⟨hlow, hhigh⟩, e⟩ <;> rw [e]
  · exact hm
  · exact Memory.inRange_writeWord hm (by omega) v

/-- Under the default policy the flags register is kept, or holds what a compare computes. -/
theorem exec_onlyFlagBits {i : Instr} {s t : State} (hs : s.Shaped) (hp : s.params.flagsOperand = .fault)
    (hfl : OnlyFlagBits s.params s.flags) (h : exec i s = .next t) : OnlyFlagBits s.params t.flags := by
  by_cases hc : ∃ ra rb, i = .cmpl ra rb
  · obtain ⟨ra, rb, rfl⟩ := hc
    have he := exec_effect (.cmpl ra rb) s
    rw [h] at he
    cases he with
    | setsFlags _ _ j k =>
      rw [setFlags_cmpFlags_flags hs]
      exact onlyFlagBits_cmpFlags hs.params _ _
    | illegalField => exact hfl
    | outOfBounds a ha hm => cases hm
    | writesReg f j v hd => cases hd
    | branches p hi => cases hi
  · rw [exec_flags hs (.inl hp) (fun ra rb e => hc ⟨ra, rb, e⟩) h]
    exact hfl

theorem exec_steady {i : Instr} {s t : State} (hs : s.Steady) (h : exec i s = .next t) : t.Steady := by
  obtain ⟨hprog, hin, hparams⟩ := exec_sameLaunch h
  refine ⟨exec_shaped hs.shaped h, exec_mem_wf hs.memCanonical h, ?_, ?_, ?_, ?_⟩
  · rw [hparams]
    exact exec_mem_inRange hs.memInRange h
  · rw [hparams]
    exact fun hp => exec_onlyFlagBits hs.shaped hp (hs.flagBits hp) h
  · rw [hin]
    rcases exec_inPos_cases h with e | ⟨e, hlt⟩ <;> rw [e]
    · exact hs.inPosBound
    · exact hlt
  · rw [hprog, hparams]
    exact hs.progBound

/-! ### Every step keeps the invariant -/

/-- A step changes the status alone, or is an instruction. -/
theorem step_status_or_exec {s t : State} (h : step s = .next t) :
    (∃ st, t = { s with status := st }) ∨ ∃ i, exec i s = .next t := by
  rcases step_cases (running_of_step h) with ⟨-, e⟩ | ⟨-, -, -, e⟩ | ⟨_, -, -, e⟩ | ⟨i, -, e⟩ <;> rw [e] at h
  · cases h
    exact .inl ⟨_, rfl⟩
  · cases h
    exact .inl ⟨_, rfl⟩
  · cases h
    exact .inl ⟨_, rfl⟩
  · exact .inr ⟨i, h⟩

theorem step_steady {s t : State} (hs : s.Steady) (h : step s = .next t) : t.Steady := by
  rcases step_status_or_exec h with ⟨st, rfl⟩ | ⟨i, hi⟩
  · exact hs.withStatus st
  · exact exec_steady hs hi

/-- The cause that R270 asks for is what the invariant keeps of a fault. -/
theorem step_fault_sound {s t : State} {kind : FaultKind} {p : Word} (hs : s.Shaped) (h : step s = .next t)
    (ht : t.status = .faulted kind p) : kind.sound s := by
  have hcause := faultCauses s t kind p hs h ht
  cases kind with
  | illegalOpcode op => exact hcause.1
  | illegalRegister f w => exact hcause.1
  | memoryOutOfBounds a => exact hcause.1
  | inputExhausted => trivial
  | misalignedPC => exact hcause.1

theorem step_inv {s t : State} (hs : s.Inv) (h : step s = .next t) : t.Inv := by
  obtain ⟨hshaped, hmem, hrange, hflags, hpos, hprog⟩ := step_steady hs.steady h
  refine ⟨hshaped, hmem, hrange, hflags, hpos, hprog, fun kind p ht => ?_, fun ht => ?_, fun ht => ?_⟩
  · have hsound := step_fault_sound hs.shaped h ht
    obtain ⟨hp, heq, -⟩ := faultsArePreciseAndFinal s t kind p h ht
    subst heq hp
    exact ⟨rfl, hsound⟩
  · obtain ⟨heq, ⟨-, hend⟩ | ⟨hr, -⟩⟩ := haltCauses s t _ h ht
    · rw [heq]
      exact hend
    · cases hr
  · obtain ⟨heq, ⟨hr, -⟩ | ⟨-, -, hempty⟩⟩ := haltCauses s t _ h ht
    · cases hr
    · rw [heq]
      exact hempty

/-- What holds at the start and is kept by every step holds in every state of the run. -/
theorem reaches_inv {s t : State} (hs : s.Inv) (h : Reaches s t) : t.Inv := by
  induction h with
  | start => exact hs
  | next _ hstep ih => exact step_inv ih hstep

/-! ### Reset and boot meet the invariant (R300, R302) -/

/-- The reset state with any program that has an address for each instruction, and any input. -/
theorem resetWith_inv {p : LaunchParams} (hp : p.wf) {prog : List Word} (hn : prog.length ≤ p.maxInstrs) (c : InChan) :
    { State.resetWith p with prog := prog, inChan := c }.Inv := by
  obtain ⟨hspIdx, -, hne⟩ := LaunchParams.wf_registers hp
  have hflags : (State.resetWith p).flags = 0 := resetWith_reg_of_ne_sp hspIdx hne.symm
  obtain ⟨hparams, hregs, hfit, hpc⟩ := resetWith_shaped hp
  refine State.Steady.inv_of_running ⟨⟨hparams, hregs, hfit, hpc⟩, ⟨.nil, nofun⟩, nofun, fun _ => ?_, Nat.zero_le _, hn⟩ rfl
  show OnlyFlagBits p (State.resetWith p).flags
  rw [hflags]
  exact onlyFlagBits_zero p

/-! ### The obligations -/

/-- Settles O11: the clauses that do not read the status are kept by an instruction and by a change of the status, and a
final status comes with its cause. -/
theorem stepKeepsInv : Obligations.StepKeepsInv := by
  unfold Obligations.StepKeepsInv
  exact fun s t => step_inv

/-- Settles O12: reset loads no instruction, which is within the bound on `N`. -/
theorem resetMeetsInv : Obligations.ResetMeetsInv := by
  unfold Obligations.ResetMeetsInv
  have hreset (p : LaunchParams) (hp : p.wf) : (State.resetWith p).Inv :=
    resetWith_inv hp (prog := []) (Nat.zero_le _) ⟨[], .nothingYet⟩
  exact ⟨hreset {} defaultParams_wf, hreset⟩

/-- Settles O13: what `boot` has checked is what the invariant asks of a booted state, and every step keeps it. -/
theorem bootedRunsMeetInv : Obligations.BootedRunsMeetInv := by
  unfold Obligations.BootedRunsMeetInv
  intro p image c s t hboot hreach
  obtain ⟨hp, prog, -, hn, rfl⟩ := boot_eq_next hboot
  exact reaches_inv (resetWith_inv hp hn c) hreach

end Sys2Proof.Machine
end

section
/-! Two instructions in a row (spec/43_compare_branch.md R209, spec/20_memory.md R72): a jump after a compare reads the
comparison, and a load after a store the stored word; with them `CompareThenBranch` and `LoadSeesLatestStore`. -/

namespace Sys2Proof.Machine

/-! ### A jump after a compare (R209) -/

theorem exec_cmpl_of_names {s : State} {ra rb : RegField} {i j : RegIdx} (hi : Names s ra i) (hj : Names s rb j) :
    exec (.cmpl ra rb) s = .next (s.setFlags (cmpFlags s.params (s.reg j) (s.reg i))).advance :=
  withFields_of_names hi hj

/-- The pc after a jump whose condition has been read. -/
theorem jumpIf_pc {taken : Bool} {c : Prop} [Decidable c] (h : taken = true ↔ c) (imm : Word) (s : State) :
    ∃ t, jumpIf taken imm s = .next t ∧ t.pc = if c then s.params.pcFit (s.pc + imm) else nextPc s := by
  obtain ⟨t, ht, hpc, -⟩ := jumpIf_goesTo h imm s
  refine ⟨t, ht, ?_⟩
  rw [hpc, apply_ite s.params.pcFit, nextPc, LaunchParams.pcFit_pcFit]

section
variable {p : LaunchParams} {a b : Word}

theorem condE_cmpFlags_iff (hp : p.wf) (ha : a.toNat < 2 ^ p.xlen) (hb : b.toNat < 2 ^ p.xlen) :
    condE p (cmpFlags p b a) = true ↔ b = a :=
  (zf_cmpFlags_iff hp b a).trans (fit_sub_eq_zero hp ha hb)

theorem condL_cmpFlags_iff (hp : p.wf) : condL p (cmpFlags p b a) = true ↔ p.signed b < p.signed a :=
  sf_xor_ovf_cmpFlags hp b a

theorem condGe_cmpFlags_iff (hp : p.wf) : condGe p (cmpFlags p b a) = true ↔ p.signed a ≤ p.signed b := by
  rw [condGe, Bool.not_eq_true', ← Bool.not_eq_true, sf_xor_ovf_cmpFlags hp, Int.not_lt]

/-- `XLEN`-bit values are equal exactly where they read as the same signed number. -/
theorem signed_inj (ha : a.toNat < 2 ^ p.xlen) (hb : b.toNat < 2 ^ p.xlen) : p.signed b = p.signed a ↔ b = a := by
  refine ⟨fun h => BitVec.eq_of_toNat_eq ?_, congrArg p.signed⟩
  rw [LaunchParams.signed_of_lt ha, LaunchParams.signed_of_lt hb] at h
  split at h <;> split at h <;> omega

theorem condLe_cmpFlags_iff (hp : p.wf) (ha : a.toNat < 2 ^ p.xlen) (hb : b.toNat < 2 ^ p.xlen) :
    condLe p (cmpFlags p b a) = true ↔ p.signed b ≤ p.signed a := by
  rw [condLe, Bool.or_eq_true, sf_xor_ovf_cmpFlags hp, zf_cmpFlags_iff hp, fit_sub_eq_zero hp ha hb, ← signed_inj ha hb,
    Int.le_iff_lt_or_eq]

theorem condBe_cmpFlags_iff (hp : p.wf) (ha : a.toNat < 2 ^ p.xlen) (hb : b.toNat < 2 ^ p.xlen) :
    condBe p (cmpFlags p b a) = true ↔ b.toNat ≤ a.toNat := by
  rw [condBe_iff, cf_cmpFlags_iff hp, zf_cmpFlags_iff hp, fit_sub_eq_zero hp ha hb, ← BitVec.toNat_inj,
    Nat.le_iff_lt_or_eq]

end

/-! ### A load after a store (R72) -/

/-- The state after a store of the word `v` at `a`. -/
def State.stored (s : State) (a : Int) (v : Word) : State := (s.setMem (s.mem.writeWord a.toNat v)).advance

/-- A word read where a store has just gone is the stored one. -/
theorem State.stored_readWord (s : State) (a : Int) (v : Word) : (s.stored a v).mem.readWord a.toNat = v :=
  Memory.readWord_writeWord s.mem a.toNat v

theorem exec_store_of_inSpace {s : State} {ra rb : RegField} {i j : RegIdx} {imm : Word} (hi : Names s ra i)
    (hj : Names s rb j) (ha : InSpace s (effAddr s.params (s.reg j) imm)) :
    exec (.movlRegDeref ra rb imm) s = .next (s.stored (effAddr s.params (s.reg j) imm) (s.reg i)) :=
  (withFields_of_names hi hj).trans (withMemWrite_of_inSpace ha)

theorem exec_load_of_inSpace {s : State} {ra rb : RegField} {i j : RegIdx} {imm : Word} (hi : Names s ra i)
    (hj : Names s rb j) (ha : InSpace s (effAddr s.params (s.reg i) imm)) :
    exec (.movlDerefReg ra rb imm) s =
      .next (s.setReg j (s.mem.readWord (effAddr s.params (s.reg i) imm).toNat)).advance :=
  (withFields_of_names hi hj).trans (withMemRead_of_inSpace ha)

/-! ### The obligations -/

/-- Settles O38: each condition of a compare's flags is the comparison, and the jump reads it. -/
theorem compareThenBranch : Obligations.CompareThenBranch := by
  unfold Obligations.CompareThenBranch
  rintro s t ra rb i j imm _ _ _ _ _ hs hi hj rfl rfl rfl rfl h rfl
  cases (exec_cmpl_of_names hi hj).symm.trans h
  have hjump (cond : LaunchParams → Word → Bool) {c : Prop} [Decidable c]
      (hc : cond s.params (cmpFlags s.params (s.reg j) (s.reg i)) = true ↔ c) :=
    jumpIf_pc ((setFlags_cmpFlags_flags hs (s.reg j) (s.reg i)).symm ▸ hc) imm
      (s.setFlags (cmpFlags s.params (s.reg j) (s.reg i))).advance
  have hlt := hs.reg_lt
  exact ⟨hjump condE (condE_cmpFlags_iff hs.params (hlt i) (hlt j)), hjump condL (condL_cmpFlags_iff hs.params),
    hjump condLe (condLe_cmpFlags_iff hs.params (hlt i) (hlt j)), hjump condGe (condGe_cmpFlags_iff hs.params),
    hjump condBe (condBe_cmpFlags_iff hs.params (hlt i) (hlt j))⟩

/-- Settles O45: the store changes no register, so the load computes the same address, and reads the word written there. -/
theorem loadSeesLatestStore : Obligations.LoadSeesLatestStore := by
  unfold Obligations.LoadSeesLatestStore
  intro s ra rb rd i j k imm hs hi hj hk ha
  have hload := exec_load_of_inSpace (s := s.stored (effAddr s.params (s.reg j) imm) (s.reg i)) hj hk ha
  refine ⟨_, _, exec_store_of_inSpace hi hj ha, hload, ?_, fun _ => rfl⟩
  rw [State.advance_reg, State.setReg_reg_self (s := s.stored _ _) (hk.lt_length hs)]
  exact (congrArg s.params.fit (s.stored_readWord _ _)).trans (hs.fit_reg i)

end Sys2Proof.Machine
end

section
/-! The word that a fetch finds (spec/40_execution_cycle.md R131): a word placed at the fetch index is in the program and is
the one that is fetched; with this `PlacedWordRunsNext`. -/

namespace Sys2Proof.Machine

theorem tableWord_32 (w : Nat) : tableWord 32 w = BitVec.ofNat 32 w :=
  BitVec.eq_of_toNat_eq (by simp [tableWord])

theorem lt_length_placeWord (prog : List Word) (k : Nat) (w : Word) : k < (placeWord prog k w).length := by
  simp only [placeWord, List.length_set, List.length_append, List.length_replicate]
  omega

theorem placeWord_getElem? (prog : List Word) (k : Nat) (w : Word) : (placeWord prog k w)[k]? = some w := by
  have hk := lt_length_placeWord prog k w
  rw [placeWord, List.length_set] at hk
  rw [placeWord, List.getElem?_set_self hk]

/-- The placed word is what the next fetch finds. -/
theorem fetchesWord_withFetched {s : State} (h : s.params.lengthFits) (w : Word)
    (hm : s.params.pcMisalign = .truncate ∨ s.pc.toNat % s.params.ilen = 0) : FetchesWord (s.withFetched w) w := by
  have hpos : 0 < s.params.ilen := Nat.lt_of_lt_of_le (by decide) h
  have hin : s.pc.toNat < s.params.ilen * (placeWord s.prog s.fetchIndex w).length := by
    rw [Nat.mul_comm]
    exact (Nat.div_lt_iff_lt_mul hpos).mp (lt_length_placeWord s.prog s.fetchIndex w)
  exact ⟨rfl, hin, placeWord_getElem? _ _ _, hm⟩

/-- Settles O25: a table word of 32 bits is the word itself, and the placed word is the one that the step fetches. -/
theorem placedWordRunsNext : Obligations.PlacedWordRunsNext := by
  unfold Obligations.PlacedWordRunsNext
  refine ⟨fun w _ => ?_, fun s w i hs _ hd hm => ?_⟩
  · rw [decodeTableWord_eq, tableWord_32]
  · rw [State.withFetchWord, tableWord_32]
    exact step_of_decodes (fetchesWord_withFetched (LaunchParams.wf_length hs.params) _ hm) hd

end Sys2Proof.Machine
end

section
/-! What the widths do to a value (spec/00_scope.md R10, R11): the cuts are remainders, which change nothing at 32 bits and
nothing that a shaped state already holds; with this `WidthsCutValues`. -/

namespace Sys2Proof.Machine

/-- Settles O53: `fit` and `pcFit` keep the low bits, and `signed` is the balanced reading of those bits. -/
theorem widthsCutValues : Obligations.WidthsCutValues := by
  unfold Obligations.WidthsCutValues
  refine ⟨fun p v => ?_, fun p v hp => ?_, fun s i v hs hi => ?_⟩
  · exact ⟨lowBits_toNat _ v, lowBits_toNat _ v,
      fun h => ⟨LaunchParams.fit_default h v, LaunchParams.signed_default h v⟩, fun h => LaunchParams.pcFit_default h v⟩
  · obtain ⟨hlow, hhigh⟩ := LaunchParams.signed_range hp v
    exact ⟨hlow, hhigh, by exact_mod_cast signedLow_emod p.xlen v.toNat⟩
  · exact ⟨State.setReg_reg_self hi v, rfl, hs.fit_reg i, LaunchParams.pcFit_of_lt hs.pcFits⟩

end Sys2Proof.Machine
end
